-- ==== Sys2Proof/Word.lean ====
section
/-!
DEFINITION. The widths of the block's values (spec/00_scope.md rules R7, R10).
Every value of the spec is an unsigned integer of a stated width: the instruction word, the program counter and the
registers are 32 bits wide, a register index is 5 bits wide, and memory is made of 8-bit units (rule R40).
-/

namespace Sys2Proof

/-- A 32-bit unsigned value: an instruction word, the program counter, a register (rules R7, R10, R60). -/
abbrev Word := BitVec 32

/-- An 8-bit unit of the memory store (rule R40). -/
abbrev Byte := BitVec 8

/-- A register index: a 5-bit field, 0 to 31 (rules R7, R21). -/
abbrev RegIdx := BitVec 5

end Sys2Proof
end

