-- ==== Sys2Proof/Config.lean ====
section
/-!
DEFINITION. What an implementation or the host fixes and the spec leaves open (spec/00_scope.md rule R7): the three
open parameters of the memory store. No in-scope rule reads any of them; a function that needs one takes it as an
argument, so a claim about it holds for every value.
The instruction table, the other configuration of the block (rule R29), is Sys2Proof/Machine/Table.lean, because its
entries hold actions.
-/

namespace Sys2Proof.Config

/-- The two values of `P_BYTE_ORDER` (spec/92_eei_decisions.md D6). -/
inductive ByteOrder where
  | little
  | big
deriving DecidableEq, Repr

/-- The open parameters of the memory store: `P_ADDR_BITS` and `P_MEM_INIT` (D7) and `P_BYTE_ORDER` (D6). -/
structure MemParams where
  /-- `P_ADDR_BITS`: the width of a memory address in bits (rule R41). -/
  addrBits : Nat
  /-- `P_BYTE_ORDER`: the order of the bytes of a multi-byte memory value (rule R44). -/
  byteOrder : ByteOrder
  /-- `P_MEM_INIT`: the bytes the host's store holds at the first request; its length is the store's (rule R181). -/
  init : List Byte
deriving DecidableEq, Repr

end Sys2Proof.Config
end

