-- ==== Sys2Proof/Machine/Flags.lean ====
section
/-!
DEFINITION. The block's one arithmetic operation. There are no flags to compute: "The block has no status flags and no
condition codes" (spec/10_state.md rule R28), and the carry out of bit 31 is discarded (spec/00_scope.md rule R10).
-/

namespace Sys2Proof.Machine

/-- `a +32 b`: the exact sum taken modulo 2^32, no carry or overflow recorded (rules R10, R134). -/
def add32 (a b : Word) : Word := BitVec.ofNat 32 ((a.toNat + b.toNat) % 2 ^ 32)

end Sys2Proof.Machine
end

