-- ==== Sys2Proof/Syntax.lean ====
section
/-!
DEFINITION. The instruction set, whole: one constructor per row of spec/opcode_table.json (spec/00_scope.md rule R2:
"exactly three instructions: `auipc`, `add` and `addi`").
The operands are the values the decoder computes (spec/30_encoding.md rule R85): register indices of 5 bits, and the
immediates as the 32-bit values `immU(w)` and `immI(w)` of rules R72 and R71. Which 32-bit values an encoding can
carry is Sys2Proof/WellFormed.lean.
-/

namespace Sys2Proof

inductive Instr where
  /-- Add upper immediate to pc (spec/41_integer.md rule R130); `immU` is the immediate in place (rule R72). -/
  | auipc (rd : RegIdx) (immU : Word)
  /-- Register-register add (rule R131). -/
  | add (rd src1 src2 : RegIdx)
  /-- Add zero-extended immediate (rule R132); `immI` is the zero-extended immediate (rule R71). -/
  | addi (rd src1 : RegIdx) (immI : Word)
deriving DecidableEq, Repr

end Sys2Proof
end

