-- ==== Sys2Proof/WellFormed.lean ====
section
/-!
DEFINITION. Which instructions have an encoding: the immediates an I-type and a U-type word can carry.
(What makes a pattern and a table well-formed, rule R80, is in Sys2Proof/Decode.lean and
Sys2Proof/Machine/Table.lean.)
-/

namespace Sys2Proof

/-- `immU` has "bits 11..0 equal to zero" (rule R72). -/
def immUWellFormed (imm : Word) : Bool := imm &&& 0x00000FFF#32 == 0#32

/-- `immI` is "an unsigned value 0 to 4095" (rule R71). -/
def immIWellFormed (imm : Word) : Bool := imm &&& 0xFFFFF000#32 == 0#32

/-- The instruction is the reading of some word: its immediate fits its format (rules R71, R72). Register indices are
5-bit fields, so every index is in range (rule R21). -/
def Instr.wellFormed : Instr → Bool
  | .auipc _ immU => immUWellFormed immU
  | .add _ _ _ => true
  | .addi _ _ immI => immIWellFormed immI

end Sys2Proof
end

