-- ==== Sys2Proof/Decode.lean ====
section
/-!
DEFINITION. The decoder half of the block (spec/30_encoding.md): the bitfield extractor, the operand accessors, the
pattern matcher, the decoder of a 32-bit word and, after it, the encoder.
The instruction word is a 32-bit value and no sequence of bytes (spec/20_memory.md rule R44), and every instruction is
exactly one word long (rule R61), so the decoder reads one `Word`.
-/

namespace Sys2Proof

/-! ### Rejection by name -/

/-- What the decoder half rejects. -/
inductive DecodeError where
  /-- The one error kind of the block: `UnrecognizedInstruction(word)`, no table entry's pattern matches the word
  (spec/60_exceptions.md rule R160). The request goes on and reports it. -/
  | unrecognizedInstruction (w : Word)
  /-- A call of `bits` outside its precondition `0 <= start <= end <= 31`, which has no meaning (rule R67). Safe: the
  spec gives the call no value, and no request makes one. -/
  | badBitRange (start stop : Nat)
deriving DecidableEq, Repr

/-! ### Bitfield extractor (rules R66, R67) -/

/-- `bits(word, start, end) = floor(word / 2^start) mod 2^(end-start+1)` for `0 <= start <= end <= 31` (rule R66);
any other range is refused (rule R67). -/
def bits (w : Word) (start stop : Nat) : Except DecodeError Nat :=
  if start ≤ stop ∧ stop ≤ 31 then .ok (w.toNat / 2 ^ start % 2 ^ (stop - start + 1))
  else .error (.badBitRange start stop)

/-! ### Operand accessors (rules R68 to R72) -/

/-- `src1(w) = w[19:15]` (rule R68). -/
def src1Of (w : Word) : RegIdx := w.extractLsb' 15 5

/-- `src2(w) = w[24:20]` (rule R69). -/
def src2Of (w : Word) : RegIdx := w.extractLsb' 20 5

/-- `rd(w) = w[11:7]` (rule R70). -/
def rdOf (w : Word) : RegIdx := w.extractLsb' 7 5

/-- `immI(w) = zext_32(w[31:20])`: zero-extended, never sign-extended (rules R71, R74). DEDUCED: log entry 3. -/
def immIOf (w : Word) : Word := (w.extractLsb' 20 12).setWidth 32

/-- `immU(w) = w & 0xFFFFF000`: the field in place (rule R72, spec/90_conflicts.md C2). DEDUCED: log entry 5. -/
def immUOf (w : Word) : Word := w &&& 0xFFFFF000#32

/-! ### Pattern matcher (rules R75 to R79) -/

/-- A bit pattern is a character string (rule R75). -/
abbrev Pattern := List Char

/-- The whitespace set U+0020, U+0009, U+000A, U+000D (rule R75; DEDUCED: log entry 10). -/
def isPatternSpace (c : Char) : Bool :=
  c.toNat == 0x20 || c.toNat == 0x09 || c.toNat == 0x0A || c.toNat == 0x0D

/-- The cleaned pattern: every whitespace character removed (rule R75). -/
def cleaned (p : Pattern) : Pattern := p.filter (fun c => !isPatternSpace c)

/-- One character against one bit (rule R76); a character other than `0`, `1`, `?` matches no bit (rule R77). -/
def charMatches (c : Char) (b : Bool) : Bool :=
  if c = '?' then true else if c = '0' then !b else if c = '1' then b else false

/-- The 32 bits of a word, most significant first: position `k` is bit `31-k` (rule R9). -/
def msbBits (w : Word) : List Bool := (List.range 32).map (fun k => w.getLsbD (31 - k))

/-- The word rendered as 32 binary digits, most significant first (rule R9). -/
def renderBinary (w : Word) : Pattern := (msbBits w).map (fun b => if b then '1' else '0')

/-- `matches(w, p)` (rules R76, R77): the cleaned pattern has 32 characters and each matches its bit; a pattern of
another length, or one with a bad character, matches no word. -/
def wordMatches (w : Word) (p : Pattern) : Bool :=
  (cleaned p).length == 32 && (List.zipWith charMatches (cleaned p) (msbBits w)).all id

/-- A pattern character of the alphabet (rule R75). -/
def isPatternChar (c : Char) : Bool := c == '0' || c == '1' || c == '?'

/-- A well-formed pattern: cleaned length 32, and only `0`, `1`, `?` besides whitespace (rule R80). -/
def patternWellFormed (p : Pattern) : Bool := (cleaned p).length == 32 && (cleaned p).all isPatternChar

/-- The value of a list of bits, most significant first, in 32 bits. -/
def wordOfMsbBits (bs : List Bool) : Word := BitVec.ofNat 32 (bs.foldl (fun n b => 2 * n + b.toNat) 0)

/-- `mask` of the precompiled form: bit `31-k` is 1 iff character `k` is `0` or `1` (rule R78). -/
def patternMask (p : Pattern) : Word := wordOfMsbBits ((cleaned p).map (fun c => c == '0' || c == '1'))

/-- `match` of the precompiled form: bit `31-k` is 1 iff character `k` is `1` (rule R78). -/
def patternMatch (p : Pattern) : Word := wordOfMsbBits ((cleaned p).map (fun c => c == '1'))

/-! ### The decoder of the default table (rules R81, R83, R85) -/

/-- The AND-compare of one comparator (rule R78). -/
def hitsEntry (w mask val : Word) : Bool := w &&& mask == val

/-- `auipc` recognizes the word: mask 0x0000007F, match 0x00000017 (rule R81). -/
def hitsAuipc (w : Word) : Bool := hitsEntry w 0x0000007F#32 0x00000017#32

/-- `add` recognizes the word: mask 0xFE00707F, match 0x00000033 (rule R81). -/
def hitsAdd (w : Word) : Bool := hitsEntry w 0xFE00707F#32 0x00000033#32

/-- `addi` recognizes the word: mask 0x0000707F, match 0x00000013 (rule R81). -/
def hitsAddi (w : Word) : Bool := hitsEntry w 0x0000707F#32 0x00000013#32

/-- The decoder of the default table, total on words: the first entry that hits selects the instruction and its
operand fields (rules R81, R85); a word no entry hits is rejected by name (rule R83). -/
def decode (w : Word) : Except DecodeError Instr :=
  if hitsAuipc w then .ok (.auipc (rdOf w) (immUOf w))
  else if hitsAdd w then .ok (.add (rdOf w) (src1Of w) (src2Of w))
  else if hitsAddi w then .ok (.addi (rdOf w) (src1Of w) (immIOf w))
  else .error (.unrecognizedInstruction w)

/-- The instruction the decoder reads from an instruction whose bits are `w`, as spec/opcode_table.json numbers them:
every row has 32 bits, and bits above `nbits` are 0. -/
def decodeTableWord (nbits w : Nat) : Option Instr :=
  match decode (BitVec.ofNat 32 (w % 2 ^ nbits)) with
  | .ok i => some i
  | .error _ => none

/-! ### The encoder (rules R62 to R64, R81) -/

/-- A 5-bit register field placed with its least significant bit at `lo`. -/
def placeReg (r : RegIdx) (lo : Nat) : Word := r.setWidth 32 <<< lo

/-- The word of an instruction: the R-, I- and U-type layouts (rules R62 to R64) with the fixed fields of rule R81.
An immediate that does not fit its format is cut to the field's bits; a well-formed instruction has none. -/
def encode : Instr → Word
  | .auipc rd immU => (immU &&& 0xFFFFF000#32) ||| placeReg rd 7 ||| 0x00000017#32
  | .add rd src1 src2 => placeReg src2 20 ||| placeReg src1 15 ||| placeReg rd 7 ||| 0x00000033#32
  | .addi rd src1 immI => immI <<< 20 ||| placeReg src1 15 ||| placeReg rd 7 ||| 0x00000013#32

end Sys2Proof
end

