-- ==== Sys2Proof/Machine/State.lean ====
section
/-!
DEFINITION. The state of the block (spec/10_state.md), the outcomes' reasons, and the state after reset.
The architectural state is the CPU state `{ pc, registers }` (rule R20) and the memory store a request can reach
(rule R40). The block takes its input and gives its output at ports (spec/40_execution_controller.md rule R100): the
events at the input ports wait in `inputs`, the response port is `rsp`, and `log` is the model's own record of the
responses (spec/92_eei_decisions.md D12).
-/

namespace Sys2Proof.Machine

/-- The CPU state: "{ program_counter: unsigned 32-bit integer; registers: fixed-size array of 32 unsigned 32-bit
integers }" (rule R20). There are no flags, modes, control registers or other register files (rule R28). -/
@[ext]
structure Cpu where
  /-- The program counter (rule R24). -/
  pc : Word
  /-- The general registers `x[0]` to `x[31]` (rule R21). -/
  regs : Vector Word 32
deriving DecidableEq, Repr

/-- The memory store: "a byte-addressable, growable sequence of 8-bit units" (rule R40). The bytes of the sequence are
listed with their addresses 0, 1, 2, …; an address that is not listed lies beyond the store's current length and has no
value (DESIGN CHOICE: log entry 7). -/
abbrev Memory := List Host.Cell

/-- What the host can do at the input ports and to its own memory store, one event at a time (rules R100, R114, R183). -/
inductive Input where
  /-- `req_valid` with `req_word`: one call of `decode_and_execute` (rule R100). -/
  | request (w : Word)
  /-- `reset`: construct the default CPU state (rule R180), between requests only (rule R183). -/
  | reset
  /-- The host grows its store by one byte (rules R40, R114; DESIGN CHOICE: log entry 8), past `2^P_ADDR_BITS` bytes too
  (DESIGN CHOICE: log entry 24). -/
  | memGrow (b : Byte)
  /-- The host stores a byte into its store (rule R114; DESIGN CHOICE: log entry 8). -/
  | memStore (addr : Nat) (b : Byte)
deriving DecidableEq, Repr

/-- A response (rules R100, R107, R108). `rsp_word` has a value only on `UNRECOGNIZED` (log entry 6). -/
inductive Response where
  /-- `rsp_status = OK`: an action ran (rule R107). -/
  | ok
  /-- `rsp_status = UNRECOGNIZED` with `rsp_word = w`: no entry matched; the error UnrecognizedInstruction(w)
  (rules R108, R160). -/
  | unrecognized (w : Word)
deriving DecidableEq, Repr

/-- The whole state of one block. -/
@[ext]
structure State where
  /-- The CPU state (rule R20). -/
  cpu : Cpu
  /-- The memory store, passed to the actions (rule R40). -/
  mem : Memory
  /-- The events waiting at the input ports, the next one first (rule R100; DESIGN CHOICE: log entry 1). -/
  inputs : List Input
  /-- The response port: the last response since reset, none before the first (rule R31). -/
  rsp : Option Response
  /-- Every response given, newest first: the model's record, no hardware state (D12, rule R30; log entry 9). -/
  log : List Response
deriving DecidableEq, Repr

/-- Reasons to stop with a fault: there are none. "No instruction raises an exception" (rule R161), the one error kind
is returned to the caller and the block goes on (rule R162), and a precondition violation is a refusal (rule R164). No
one raises a fault, so the question safe or unsafe does not arise (log entry 14). -/
inductive Fault where
deriving DecidableEq, Repr

/-- Reasons to give no meaning. No request with the default table is refused. -/
inductive Refusal where
  /-- `exec` of an instruction whose meaning is not modelled, by its mnemonic: no arm is left. Safe. -/
  | notModelled (mnemonic : String)
  /-- The read accessor `reg_out` with an index outside 0 to 31 (rule R115, D16). Safe: a precondition violation. -/
  | registerIndexOutOfRange (i : Nat)
  /-- Building a table whose entry `k` has a malformed pattern (rule R80, D9). Safe: no table is built. -/
  | malformedPattern (k : Nat)
  /-- The controller, with a table whose selected action wrote `pc` or memory: such an entry is refused until a source
  specifies it (rule R106, D18; log entry 13). Safe; no action of the default table does it. -/
  | actionWritesPcOrMemory
  /-- A memory access beyond the store (rule R41, spec/93_implementation_defined.md I15). The
  controller raises it when an appended action reads beyond the store's current length (log entry 25), never with the
  default table, whose actions access no memory. The host's own store event raises it beyond the store's current length only, whatever `P_ADDR_BITS` is (DESIGN CHOICE: log
  entry 24); the memory primitives raise it beyond the current length or the address width `P_ADDR_BITS` (log entry
  15). Safe. -/
  | memoryBeyondStore (addr : Nat)
deriving DecidableEq, Repr

/-- The default machine state: "all registers zero, program counter zero" (rule R180). -/
def Cpu.reset : Cpu := { pc := 0#32, regs := Vector.replicate 32 0#32 }

/-- The block after reset with the host's memory store `m`: reset constructs the CPU state and does not touch the
store (rules R31, R180, R181); no event waits and no response has been given. -/
def State.resetWith (m : Memory) : State :=
  { cpu := Cpu.reset, mem := m, inputs := [], rsp := none, log := [] }

/-- The block after reset, with nothing in the host's memory store (`P_MEM_INIT` is open, D7; log entry 7). -/
def State.reset : State := State.resetWith []

end Sys2Proof.Machine
end

