-- ==== Sys2Proof/Machine/Operands.lean ====
section
/-!
DEFINITION. Reading and writing the registers and the program counter, the operands of the three instructions: a
source register, the destination register, the immediate (which the decoder has extracted) and the incremented pc.
-/

namespace Sys2Proof.Machine

/-- `x[i]` (rule R11): every index reads its own register, register 0 among them (rule R22; DEDUCED: log entry 2). -/
def Cpu.readReg (c : Cpu) (i : RegIdx) : Word := c.regs[i.toNat]'i.isLt

/-- `x[i] <- v` (rule R11): every index stores, register 0 among them (rule R22; DEDUCED: log entry 2). -/
def Cpu.writeReg (c : Cpu) (i : RegIdx) (v : Word) : Cpu := { c with regs := c.regs.set i.toNat v i.isLt }

/-- `x[i]` of the block. -/
def State.readReg (s : State) (i : RegIdx) : Word := s.cpu.readReg i

/-- `x[i] <- v` of the block. -/
def State.writeReg (s : State) (i : RegIdx) (v : Word) : State := { s with cpu := s.cpu.writeReg i v }

/-- `pc` of the block. -/
def State.pc (s : State) : Word := s.cpu.pc

/-- `pc <- v` (rule R11). -/
def Cpu.writePc (c : Cpu) (v : Word) : Cpu := { c with pc := v }

end Sys2Proof.Machine
end

