-- ==== Sys2Proof/Machine/Ops.lean ====
section
/-!
DEFINITION. The shared operations: the memory store, the pc pre-increment, giving a response, the one exception
(UnrecognizedInstruction), reset, and the protocol of one request (spec/40_execution_controller.md rule R102).
There is no return from an exception: nothing is trapped (spec/60_exceptions.md rules R162, R167).
-/

namespace Sys2Proof.Machine

/-! ### The memory store (rules R40, R41) -/

/-- The canonical form: the listed addresses are 0, 1, …, length-1, in order (so strictly rising), and no address is
listed that has no value. -/
def Memory.wf (m : Memory) : Bool := m.map Prod.fst == List.range m.length

/-- One byte; none beyond the store's current length (log entry 7). -/
def Memory.read (m : Memory) (a : Nat) : Option Byte := List.lookup a m

/-- The store that holds the bytes `bs` from address 0 (the host's `P_MEM_INIT`). -/
def Memory.ofBytes (bs : List Byte) : Memory := (List.range bs.length).zip bs

/-- The store grown by one byte at its end (rule R40 "growable"). -/
def Memory.grow (m : Memory) (b : Byte) : Memory := m ++ [(m.length, b)]

/-- One byte written within the store's current length; beyond it, refused (I15). -/
def Memory.write (m : Memory) (a : Nat) (b : Byte) : Except Refusal Memory :=
  if a < m.length then .ok (m.map (fun c => if c.1 = a then (a, b) else c)) else .error (.memoryBeyondStore a)

/-- `n` bytes from address `a` on, in address order; refused if one has no value (I15). -/
def Memory.readBytes (m : Memory) (a : Nat) : Nat → Except Refusal (List Byte)
  | 0 => .ok []
  | n + 1 =>
    match m.read a with
    | none => .error (.memoryBeyondStore a)
    | some b =>
      match m.readBytes (a + 1) n with
      | .ok bs => .ok (b :: bs)
      | .error r => .error r

/-- The bytes `bs` written from address `a` on, in address order; refused if one lies beyond the length (I15). -/
def Memory.writeBytes (m : Memory) (a : Nat) : List Byte → Except Refusal Memory
  | [] => .ok m
  | b :: bs =>
    match m.write a b with
    | .error r => .error r
    | .ok m' => m'.writeBytes (a + 1) bs

/-- The value of bytes given least significant first. -/
def littleEndianValue : List Byte → Nat
  | [] => 0
  | b :: bs => b.toNat + 256 * littleEndianValue bs

/-- The `n` bytes of a value, least significant first. -/
def littleEndianBytes : Nat → Nat → List Byte
  | 0, _ => []
  | n + 1, v => BitVec.ofNat 8 v :: littleEndianBytes n (v / 256)

/-- Bytes in address order turned into least-significant-first order, and back, under `P_BYTE_ORDER` (D6). -/
def orderBytes (order : Config.ByteOrder) (bs : List Byte) : List Byte :=
  match order with
  | .little => bs
  | .big => bs.reverse

/-- `MemRead(addr, n)` (rule R11): the memory store's load primitive under the open parameters. No in-scope rule calls
it (rule R42). DESIGN CHOICE: log entry 15. -/
def memRead (p : Config.MemParams) (m : Memory) (addr n : Nat) : Except Refusal Nat :=
  if addr + n ≤ 2 ^ p.addrBits then
    match m.readBytes addr n with
    | .ok bs => .ok (littleEndianValue (orderBytes p.byteOrder bs))
    | .error r => .error r
  else .error (.memoryBeyondStore addr)

/-- `MemWrite(addr, n, v)` (rule R11): the memory store's store primitive under the open parameters; a refused store
writes nothing. No in-scope rule calls it (rule R42). DESIGN CHOICE: log entry 15. -/
def memWrite (p : Config.MemParams) (m : Memory) (addr n v : Nat) : Except Refusal Memory :=
  if addr + n ≤ 2 ^ p.addrBits then m.writeBytes addr (orderBytes p.byteOrder (littleEndianBytes n v))
  else .error (.memoryBeyondStore addr)

/-! ### The controller's steps (rules R103, R107, R108) -/

/-- `pc <- pc +32 4`, "always, before matching and before the action" (rules R102, R103; for a word no entry matches,
spec/90_conflicts.md C1, DEDUCED: log entry 12); it wraps at the top of the range (rule R26; DEDUCED: log entry 4). -/
def State.advancePc (s : State) : State := { s with cpu := s.cpu.writePc (add32 s.cpu.pc 4#32) }

/-- The request ends with the response `r` (rules R107, R108); the model records it (D12). -/
def State.respond (r : Response) (s : State) : State := { s with rsp := some r, log := r :: s.log }

/-- `raise UnrecognizedInstruction(w)` (rules R11, R108, R160, R162): the failure response carrying the word. It saves
no state, changes no mode and jumps to no vector; the block goes on. -/
def State.raiseUnrecognized (w : Word) (s : State) : State := s.respond (.unrecognized w)

/-- Reset between requests: the default CPU state, and no response yet; the memory store and the events still waiting
stay as they are (rules R180, R181, R183; DEDUCED: log entry 16). -/
def State.applyReset (s : State) : State := { s with cpu := Cpu.reset, rsp := none }

/-- What a request's word selects: the action to run, or none. -/
abbrev Selection := Word → Option (State → Host.Outcome State Fault Refusal)

/-- One request with word `w` (rule R102): the pc is advanced; the selected action, if any, runs on the state with the
incremented pc and the response is OK; if none is selected, UnrecognizedInstruction(w) is reported. -/
def serveRequest (select : Selection) (w : Word) (s : State) : Host.Outcome State Fault Refusal :=
  match select w with
  | none => .next (s.advancePc.raiseUnrecognized w)
  | some action =>
    match action s.advancePc with
    | .next t => .next (t.respond .ok)
    | .fault r => .fault r
    | .refused r => .refused r

/-- The event at the head of the input ports is taken and served, whole, in one step (rule R101). With no event the
block "does nothing between requests" (rule R173). The host's own use of its store is not bounded by `P_ADDR_BITS` (DESIGN
CHOICE: log entry 24). -/
def serveNext (select : Selection) (s : State) : Host.Outcome State Fault Refusal :=
  match s.inputs with
  | [] => .next s
  | .request w :: rest => serveRequest select w { s with inputs := rest }
  | .reset :: rest => .next (State.applyReset { s with inputs := rest })
  | .memGrow b :: rest => .next { s with inputs := rest, mem := s.mem.grow b }
  | .memStore a b :: rest =>
    match s.mem.write a b with
    | .ok m => .next { s with inputs := rest, mem := m }
    | .error r => .refused r

/-! ### The host's read accessors (rules R100, R115) -/

/-- `pc_out`: a read-only view of `pc` (rule R115). -/
def State.pcOut (s : State) : Word := s.cpu.pc

/-- `reg_out` for `reg_idx = i`: `x[i]` for 0 to 31; any other index is refused (rule R115, D16). -/
def State.regOut (s : State) (i : Nat) : Except Refusal Word :=
  if h : i < 32 then .ok (s.cpu.regs[i]'h) else .error (.registerIndexOutOfRange i)

/-- `rsp_status`: OK = 0, UNRECOGNIZED = 1; no value before the first response (rules R31, R100). -/
def State.rspStatus (s : State) : Option (BitVec 1) :=
  s.rsp.map (fun r => match r with | .ok => 0#1 | .unrecognized _ => 1#1)

/-- `rsp_word`: the raw word on UNRECOGNIZED, "no value otherwise" (rule R100). -/
def State.rspWord (s : State) : Option Word :=
  match s.rsp with
  | some (.unrecognized w) => some w
  | _ => none

/-! ### The host's diagnostic (rule R160, D15) -/

/-- One hexadecimal digit, lowercase. -/
def hexDigit (d : BitVec 4) : Char :=
  if d.toNat < 10 then Char.ofNat (48 + d.toNat) else Char.ofNat (87 + d.toNat)

/-- A word "rendered as 8 hex digits": lowercase, zero-padded (rule R160; DEDUCED: log entry 17). -/
def renderHex (w : Word) : List Char := (List.range 8).map (fun k => hexDigit (w.extractLsb' (28 - 4 * k) 4))

end Sys2Proof.Machine
end

