-- ==== Sys2Proof/Machine/Integer.lean ====
section
/-!
DEFINITION. The meanings of the three instructions (spec/41_integer.md). Each runs after the pc pre-increment, so the
`pc` it reads is the word's address plus 4 (rule R24), and each writes exactly one register (rule R133).
-/

namespace Sys2Proof.Machine

/-- `auipc`: `x[rd] <- pc +32 immU` (rule R130). The sum wraps (DEDUCED: log entry 4). -/
def execAuipc (rd : RegIdx) (immU : Word) (s : State) : Host.Outcome State Fault Refusal :=
  .next (s.writeReg rd (add32 s.pc immU))

/-- `add`: `a <- x[s1]; b <- x[s2]; x[rd] <- a +32 b` (rule R131). -/
def execAdd (rd src1 src2 : RegIdx) (s : State) : Host.Outcome State Fault Refusal :=
  .next (s.writeReg rd (add32 (s.readReg src1) (s.readReg src2)))

/-- `addi`: `a <- x[s1]; x[rd] <- a +32 immI` (rule R132). -/
def execAddi (rd src1 : RegIdx) (immI : Word) (s : State) : Host.Outcome State Fault Refusal :=
  .next (s.writeReg rd (add32 (s.readReg src1) immI))

end Sys2Proof.Machine
end

