-- ==== Sys2Proof/Machine/Dispatch.lean ====
section
/-!
DEFINITION. One arm per constructor of Instr: the instruction's meaning.
-/

namespace Sys2Proof.Machine

def exec (i : Instr) (s : State) : Host.Outcome State Fault Refusal :=
  match i with
  | .auipc rd immU => Sys2Proof.Machine.execAuipc rd immU s
  | .add rd src1 src2 => Sys2Proof.Machine.execAdd rd src1 src2 s
  | .addi rd src1 immI => Sys2Proof.Machine.execAddi rd src1 immI s

end Sys2Proof.Machine
end

