-- ==== Sys2Proof/Machine/Controller.lean ====
section
/-!
DEFINITION. The request protocol of the block with the default table: the decoder pre-decodes the word and `exec` runs
the instruction (spec/30_encoding.md rule R85: pre-decoding and passing the raw word "give the same results").
The protocol with any table and raw-word actions, as rule R102 writes it, is Sys2Proof/Machine/Table.lean.
-/

namespace Sys2Proof.Machine

/-- The instruction the decoder reads selects its meaning; an unrecognized word selects nothing (rules R83, R85). -/
def selectDecoded : Selection := fun w =>
  match decode w with
  | .ok i => some (exec i)
  | .error _ => none

/-- `decode_and_execute(w)` with the default table (rule R102). -/
def decodeAndExecute (w : Word) (s : State) : Host.Outcome State Fault Refusal := serveRequest selectDecoded w s

/-- The state whose next event is a request for the word `w`. -/
def State.withRequest (s : State) (w : Word) : State := { s with inputs := .request w :: s.inputs }

end Sys2Proof.Machine
end

