-- ==== Sys2Proof/Machine/Step.lean ====
section
/-!
DEFINITION. One step: the block serves the next event at its input ports (spec/40_execution_controller.md rule R101:
a request is "one indivisible transition"). The block fetches nothing; the word of a request is an input
(spec/20_memory.md rule R43), so the next instruction's place is the head of `inputs` (log entry 1).
-/

namespace Sys2Proof.Machine

/-- One step of the block with the default table. -/
def step (s : State) : Host.Outcome State Fault Refusal := serveNext selectDecoded s

/-- The state whose very next step is a request for the table word `w` of `nbits` bits. -/
def State.withFetchWord (s : State) (nbits w : Nat) : State := s.withRequest (BitVec.ofNat 32 (w % 2 ^ nbits))

end Sys2Proof.Machine
end

