-- ==== Sys2Proof/Machine/Assembler.lean ====
section
/-!
DEFINITION. The assembler's reading of one line (spec/30_encoding.md rule R86). It is no part of the machine: "a wrong
syntax misprints, but never changes a value" (spec/92_eei_decisions.md D10; log entry 18). There are no
pseudo-instructions (rule R87).
-/

namespace Sys2Proof.Machine

/-- A line with its numbers read but not yet checked (rule R86): the register numbers and the immediate field. -/
inductive AsmLine where
  | add (d s1 s2 : Nat)
  | addi (d s1 imm : Nat)
  | auipc (d imm20 : Nat)
deriving DecidableEq, Repr

/-- The ranges of rule R86: registers `x0` to `x31`, `imm` 0 to 4095, `imm20` 0 to 0xFFFFF. -/
def AsmLine.wellFormed : AsmLine → Bool
  | .add d s1 s2 => d < 32 && s1 < 32 && s2 < 32
  | .addi d s1 imm => d < 32 && s1 < 32 && imm < 4096
  | .auipc d imm20 => d < 32 && imm20 < 0x100000

/-- The instruction of a line whose numbers are in range; `imm20` is "the 20-bit field value", not the shifted
immediate (rule R86). -/
def AsmLine.toInstr (a : AsmLine) : Option Instr :=
  if a.wellFormed then
    match a with
    | .add d s1 s2 => some (.add (BitVec.ofNat 5 d) (BitVec.ofNat 5 s1) (BitVec.ofNat 5 s2))
    | .addi d s1 imm => some (.addi (BitVec.ofNat 5 d) (BitVec.ofNat 5 s1) (BitVec.ofNat 32 imm))
    | .auipc d imm20 => some (.auipc (BitVec.ofNat 5 d) (BitVec.ofNat 32 (imm20 * 4096)))
  else none

/-- The line of an instruction: the inverse reading. -/
def asmLineOf : Instr → AsmLine
  | .add rd src1 src2 => .add rd.toNat src1.toNat src2.toNat
  | .addi rd src1 immI => .addi rd.toNat src1.toNat immI.toNat
  | .auipc rd immU => .auipc rd.toNat (immU.toNat / 4096)

/-- The value of a digit in the given base (10 or 16), either letter case. -/
def digitValue (base : Nat) (c : Char) : Option Nat :=
  let v := if '0' ≤ c ∧ c ≤ '9' then c.toNat - 48
    else if 'a' ≤ c ∧ c ≤ 'f' then c.toNat - 87
    else if 'A' ≤ c ∧ c ≤ 'F' then c.toNat - 55
    else 16
  if v < base then some v else none

/-- Digits read onto the value so far. -/
def readDigits (base : Nat) : List Char → Nat → Option Nat
  | [], n => some n
  | c :: cs, n =>
    match digitValue base c with
    | some v => readDigits base cs (base * n + v)
    | none => none

/-- A number "in decimal or in hexadecimal with `0x`" (rule R86). Leading zeros are accepted, so `0004` reads as 4
(DESIGN CHOICE, rule R86 is silent: log entry 18). -/
def readNumber : List Char → Option Nat
  | [] => none
  | '0' :: 'x' :: c :: cs => readDigits 16 (c :: cs) 0
  | c :: cs => readDigits 10 (c :: cs) 0

/-- A register `x<number>`, the number in decimal (rules R21, R86). Leading zeros are accepted, so `x01` reads as
register 1 (DESIGN CHOICE, rules R21 and R86 name `x0` to `x31` only: log entry 18). -/
def readRegister : List Char → Option Nat
  | 'x' :: c :: cs => readDigits 10 (c :: cs) 0
  | _ => none

/-- A text cut at every `sep`. -/
def cutAt (sep : Char) : List Char → List (List Char)
  | [] => [[]]
  | c :: cs =>
    match cutAt sep cs with
    | [] => [[c]]
    | w :: ws => if c = sep then [] :: w :: ws else (c :: w) :: ws

/-- The operands after the mnemonic: cut at the commas, every space dropped, around an operand and inside it, so `x 1 2`
reads as `x12` and `4 0` as 40 (DESIGN CHOICE, rules R21 and R86 are silent: log entry 18). -/
def operandTexts (cs : List Char) : List (List Char) := (cutAt ',' cs).map (fun w => w.filter (fun c => c != ' '))

/-- Three operands: register, register, and what `last` reads. -/
def readThree (last : List Char → Option Nat) (mk : Nat → Nat → Nat → AsmLine) (cs : List Char) : Option AsmLine :=
  match operandTexts cs with
  | [a, b, c] =>
    match readRegister a, readRegister b, last c with
    | some d, some s, some v => some (mk d s v)
    | _, _, _ => none
  | _ => none

/-- The forms of rule R86: `add xD, xS1, xS2`; `addi xD, xS1, imm`; `auipc xD, imm20`. -/
def readAsm : List Char → Option AsmLine
  | 'a' :: 'd' :: 'd' :: ' ' :: cs => readThree readRegister .add cs
  | 'a' :: 'd' :: 'd' :: 'i' :: ' ' :: cs => readThree readNumber .addi cs
  | 'a' :: 'u' :: 'i' :: 'p' :: 'c' :: ' ' :: cs =>
    match operandTexts cs with
    | [a, b] =>
      match readRegister a, readNumber b with
      | some d, some v => some (.auipc d v)
      | _, _ => none
    | _ => none
  | _ => none

/-- The word of a line of assembler text; none where the line has no encoding. -/
def assemble (text : List Char) : Option Word :=
  match readAsm text with
  | none => none
  | some a =>
    match a.toInstr with
    | none => none
    | some i => some (encode i)

/-- The decimal digits of a register number or an immediate, least significant first, for numbers below 10^n. -/
def decimalDigits : Nat → Nat → List Char
  | 0, _ => []
  | n + 1, v => Char.ofNat (48 + v % 10) :: (if v / 10 = 0 then [] else decimalDigits n (v / 10))

/-- A number written in decimal. -/
def writeNumber (v : Nat) : List Char := (decimalDigits 7 v).reverse

/-- A register written `x<number>`. -/
def writeRegister (d : Nat) : List Char := 'x' :: writeNumber d

/-- The text of a line in the forms of rule R86, numbers in decimal. -/
def writeAsm : AsmLine → List Char
  | .add d s1 s2 => "add ".toList ++ writeRegister d ++ ", ".toList ++ writeRegister s1 ++ ", ".toList ++ writeRegister s2
  | .addi d s1 imm => "addi ".toList ++ writeRegister d ++ ", ".toList ++ writeRegister s1 ++ ", ".toList ++ writeNumber imm
  | .auipc d imm20 => "auipc ".toList ++ writeRegister d ++ ", ".toList ++ writeNumber imm20

end Sys2Proof.Machine
end

