-- ==== Sys2Proof/Machine/Table.lean ====
section
/-!
DEFINITION. The instruction table as configuration (spec/30_encoding.md rules R80, R81; spec/10_state.md rule R29) and
the controller that takes it as an argument, running actions on the raw word as spec/40_execution_controller.md rules
R102 to R108 say. The table is no state: no step reads anything of it but its entries, and none writes it (rule R112).
-/

namespace Sys2Proof.Machine

/-- What an action does once it has the CPU state and the word, its reads of the memory store written out one by one, so
that a read beyond the store can be refused (rule R41, spec/93_implementation_defined.md I15; log entry 25). It sees the
store only through them. -/
inductive Computation where
  /-- The action's result: the CPU state, and the memory store if it writes any (none: the store as it was). -/
  | done (cpu : Cpu) (mem : Option Memory)
  /-- One byte is read and the action goes on with it. -/
  | read (addr : Nat) (next : Byte → Computation)
  /-- The store's current length is read and the action goes on with it; no byte is accessed. -/
  | length (next : Nat → Computation)

/-- The result of a computation on the store `m`: total, and refused only at a read beyond the store's current length,
which has no meaning "until a source specifies it" (rule R41, I15; log entry 25). -/
def Computation.perform : Computation → Memory → Except Refusal (Cpu × Option Memory)
  | .done cpu mem, _ => .ok (cpu, mem)
  | .read a next, m =>
    match m.read a with
    | some b => (next b).perform m
    | none => .error (.memoryBeyondStore a)
  | .length next, m => (next m.length).perform m

/-- The addresses a computation on the store `m` reads, in order, up to the first that has no value. -/
def Computation.reads : Computation → Memory → List Nat
  | .done _ _, _ => []
  | .read a next, m =>
    a :: match m.read a with
      | some b => (next b).reads m
      | none => []
  | .length next, m => (next m.length).reads m

/-- The bytes at the addresses 0 to `n - 1` are read, in address order, before the action goes on with them. -/
def Computation.readFirst : Nat → (List Byte → Computation) → Computation
  | 0, next => next []
  | n + 1, next => readFirst n (fun bs => .read n (fun b => next (bs ++ [b])))

/-- An action: "a total function from (CPU state, memory, word) to (CPU state, memory)" (rule R106), the memory read byte
by byte (Computation). It takes the raw word and extracts its own operands (rule R105). -/
abbrev Action := Cpu → Word → Computation

/-- The action of a total function in rule R106's own form: it reads the whole store, and writes memory iff the function
returns another store. So no action of rule R106 is shut out by Computation. -/
def Action.ofTotal (f : Cpu → Memory → Word → Cpu × Memory) : Action := fun cpu w =>
  .length fun n => .readFirst n fun bs =>
    .done (f cpu (Memory.ofBytes bs) w).1
      (if (f cpu (Memory.ofBytes bs) w).2 = Memory.ofBytes bs then none else some (f cpu (Memory.ofBytes bs) w).2)

/-- A table entry: a (bit pattern, semantic action) pair (rule R29). -/
structure Entry where
  pattern : Pattern
  action : Action

/-- Every entry's pattern is well-formed (rule R80). Overlap is no ground for refusal. -/
def entriesWellFormed (es : List Entry) : Bool := es.all (fun e => patternWellFormed e.pattern)

/-- A built table: an ordered sequence of entries, well-formed. A malformed one "is refused when the table is built"
and cannot be one of these (rule R80, D9). -/
structure Table where
  entries : List Entry
  wf : entriesWellFormed entries = true

/-- Building a table, before the first request (rules R80, R112): the first malformed entry refuses it. -/
def buildTable (es : List Entry) : Except Refusal Table :=
  if h : entriesWellFormed es = true then .ok ⟨es, h⟩
  else .error (.malformedPattern (es.findIdx (fun e => !patternWellFormed e.pattern)))

/-- The table with entries appended, the only extension there is (rule R113). -/
def Table.append (T U : Table) : Table :=
  ⟨T.entries ++ U.entries, by
    have h1 := T.wf; have h2 := U.wf
    simp only [entriesWellFormed, List.all_append, Bool.and_eq_true] at h1 h2 ⊢
    exact ⟨h1, h2⟩⟩

/-! ### The decoder's signals (rule R85) -/

/-- `hit[k]` for every entry `k`. -/
def Table.hits (T : Table) (w : Word) : List Bool := T.entries.map (fun e => wordMatches w e.pattern)

/-- `any_hit`. -/
def Table.anyHit (T : Table) (w : Word) : Bool := (T.hits w).any id

/-- `sel`: the least `k` with `hit[k]`, when there is one. -/
def Table.sel (T : Table) (w : Word) : Option Nat := T.entries.findIdx? (fun e => wordMatches w e.pattern)

/-- First match wins: the entries are tried in declaration order (rule R104). -/
def Table.firstMatch (T : Table) (w : Word) : Option Entry := T.entries.find? (fun e => wordMatches w e.pattern)

/-- How many patterns a request for `w` tests before it stops (rules R104, R111). -/
def patternTests (w : Word) : List Entry → Nat
  | [] => 0
  | e :: es => if wordMatches w e.pattern then 1 else patternTests w es + 1

/-! ### The controller with a table (rules R102 to R108) -/

/-- The action runs on the CPU state, the memory and the raw word (rule R105). One that reads beyond the store's current
length is refused (rule R41, spec/93_implementation_defined.md I15; log entry 25), and so is one that writes `pc` or
memory, which is outside what the source specifies (rule R106, D18; log entry 13). -/
def runAction (action : Action) (w : Word) (s : State) : Host.Outcome State Fault Refusal :=
  match (action s.cpu w).perform s.mem with
  | .error r => .refused r
  | .ok (_, some _) => .refused .actionWritesPcOrMemory
  | .ok (cpu, none) => if cpu.pc = s.cpu.pc then .next { s with cpu := cpu } else .refused .actionWritesPcOrMemory

/-- The first matching entry's action, if any entry matches (rule R104). -/
def selectFirstMatch (T : Table) : Selection := fun w =>
  match T.firstMatch w with
  | some e => some (runAction e.action w)
  | none => none

/-- `decode_and_execute(w)` with the table `T` (rule R102). -/
def decodeAndExecuteWith (T : Table) (w : Word) (s : State) : Host.Outcome State Fault Refusal :=
  serveRequest (selectFirstMatch T) w s

/-- One step of the block with the table `T` (rule R112: "A model takes `TABLE` as a configuration argument of the
step"). `step` is this with the default table. -/
def stepWith (T : Table) (s : State) : Host.Outcome State Fault Refusal := serveNext (selectFirstMatch T) s

/-! ### The default table (rule R81) -/

/-- Entry 0's action (rule R130), on the raw word. -/
def actionAuipc : Action := fun cpu w => .done (cpu.writeReg (rdOf w) (add32 cpu.pc (immUOf w))) none

/-- Entry 1's action (rule R131), on the raw word. -/
def actionAdd : Action := fun cpu w =>
  .done (cpu.writeReg (rdOf w) (add32 (cpu.readReg (src1Of w)) (cpu.readReg (src2Of w)))) none

/-- Entry 2's action (rule R132), on the raw word. -/
def actionAddi : Action := fun cpu w =>
  .done (cpu.writeReg (rdOf w) (add32 (cpu.readReg (src1Of w)) (immIOf w))) none

/-- The pattern of `auipc` (rule R81). -/
def patternAuipc : Pattern := "???????????????????? ????? 0010111".toList

/-- The pattern of `add` (rule R81). -/
def patternAdd : Pattern := "0000000 ????? ????? 000 ????? 0110011".toList

/-- The pattern of `addi` (rule R81). -/
def patternAddi : Pattern := "???????????? ????? 000 ????? 0010011".toList

/-- The entries of the default table, in the order auipc, add, addi (rule R81; DEDUCED: log entry 11). -/
def defaultEntries : List Entry :=
  [⟨patternAuipc, actionAuipc⟩, ⟨patternAdd, actionAdd⟩, ⟨patternAddi, actionAddi⟩]

/-- The default table (rule R81). -/
def defaultTable : Table := ⟨defaultEntries, by decide⟩

/-! ### The phases of one request (rule R109) -/

/-- The source's per-instruction states; they exist only within one request (rules R30, R109). -/
inductive Phase where
  /-- The state at entry, with the word available. -/
  | fetched
  /-- From the selection of an entry until its action returns. -/
  | decodedExecuting
  /-- The end of a matched request. -/
  | committed
  /-- The end of an unmatched request. -/
  | faulted
deriving DecidableEq, Repr

/-- The phases a request for `w` passes through, in order (rule R109). -/
def requestPhases (T : Table) (w : Word) : List Phase :=
  match T.firstMatch w with
  | some _ => [.fetched, .decodedExecuting, .committed]
  | none => [.fetched, .faulted]

/-! ### Boot and instances (rules R53, R172, R184) -/

/-- What the host does before the first request (rule R184): build the table, construct the default CPU state, provide
the memory store with the bytes of `P_MEM_INIT`, however many they are (not bounded by `P_ADDR_BITS`, DESIGN CHOICE: log
entry 24). -/
def boot (p : Config.MemParams) (es : List Entry) : Except Refusal (Table × State) :=
  match buildTable es with
  | .ok T => .ok (T, State.resetWith (Memory.ofBytes p.init))
  | .error r => .error r

/-- One step of the `k`-th of several independent blocks that share the table read-only (rules R53, R172); `none` when
there is no such block. A block that is refused leaves the list as it was and answers its refusal. -/
def stepAmong (T : Table) (k : Nat) (blocks : List State) : Option (Host.Outcome (List State) Fault Refusal) :=
  match blocks[k]? with
  | none => none
  | some s =>
    match stepWith T s with
    | .next t => some (.next (blocks.set k t))
    | .fault r => some (.fault r)
    | .refused r => some (.refused r)

end Sys2Proof.Machine
end

