-- ==== Sys2Proof/Safety.lean ====
section
/-!
DEFINITION. What counts as a good state and a safe step, in the terms the statements use.
-/

namespace Sys2Proof.Machine

/-- The pc is a multiple of 4 (spec/10_state.md rule R27). -/
def State.pcAligned (s : State) : Prop := s.cpu.pc.toNat % 4 = 0

/-- The response port shows the newest response, or none since reset. -/
def State.portAgrees (s : State) : Prop := s.rsp = none ∨ s.rsp = s.log.head?

/-- The invariant every step keeps: the memory store is in its canonical form, the pc is a multiple of 4 (rule R27),
and the response port agrees with the record. -/
structure State.Inv (s : State) : Prop where
  memWf : s.mem.wf = true
  pcAligned : s.pcAligned
  portAgrees : s.portAgrees

/-- No response so far was UNRECOGNIZED: the premise spec/92_eei_decisions.md D12 recommends for claims about programs. -/
def State.noUnrecognized (s : State) : Prop := ∀ r ∈ s.log, r = Response.ok

/-- A safe step answers a next state. -/
def safeStep (s : State) : Prop := ∃ t, step s = .next t

/-- `t` is `s` but for the value of `x[rd]`: what the three instructions leave unchanged (rules R130 to R133). There are
no flags, modes, special registers or accumulators that could change (rule R28). -/
structure SameButReg (rd : RegIdx) (s t : State) : Prop where
  /-- "leaves the other 31 unchanged" (rule R133). -/
  regs : ∀ j, j ≠ rd → t.readReg j = s.readReg j
  /-- "`pc` and memory are not written". -/
  pc : t.cpu.pc = s.cpu.pc
  /-- Every byte of memory reads as before. -/
  mem : ∀ a, t.mem.read a = s.mem.read a
  /-- The store's length is as before. -/
  memLength : t.mem.length = s.mem.length
  inputs : t.inputs = s.inputs
  rsp : t.rsp = s.rsp
  log : t.log = s.log

/-- What every completed request of the default table does besides writing a register: the pc has advanced by 4 modulo
2^32, the request is taken from the input ports and `rest` waits, every byte of memory reads as before, and the
response `r` is given and recorded. -/
structure RequestDone (rest : List Input) (r : Response) (s t : State) : Prop where
  pc : t.cpu.pc.toNat = (s.cpu.pc.toNat + 4) % 2 ^ 32
  mem : ∀ a, t.mem.read a = s.mem.read a
  memLength : t.mem.length = s.mem.length
  inputs : t.inputs = rest
  rsp : t.rsp = some r
  log : t.log = r :: s.log

end Sys2Proof.Machine
end

