-- ==== Sys2Proof/Certificates/Slice0/Obligations.lean ====
section
/-!
DEFINITION. The statements for the provers, one def Obligations.<Name> each. Where a clause rests on a decision the spec
marks as its own (spec/92_eei_decisions.md) or on a log entry of the model, the docstring names it.
-/

open Sys2Proof Sys2Proof.Machine

/-! ### Reset and the input ports -/

/-- Rule R180: after reset the pc and every register are zero, whatever the host's memory store holds. -/
def Obligations.ResetZeroesPcAndRegisters : Prop :=
  ∀ m : Memory,
    (State.resetWith m).cpu.pc = 0#32 ∧ (∀ i : RegIdx, (State.resetWith m).readReg i = 0#32) ∧
    State.reset.cpu.pc = 0#32 ∧ ∀ i : RegIdx, State.reset.readReg i = 0#32

/-- Rules R181, R183 (decisions D7, D19): a reset event constructs the default CPU state and leaves the memory store
alone. The rest is the model's choice: that a reset is one of the events that wait (log entry 1) and that those behind it
stay (log entry 16), that the response port is then empty (log entry 6), and that the record is kept (log entry 9). -/
def Obligations.ResetEventRestoresCpuOnly : Prop :=
  ∀ (s : State) (rest : List Input), s.inputs = Input.reset :: rest →
    ∃ t, step s = .next t ∧ t.cpu.pc = 0#32 ∧ (∀ i : RegIdx, t.readReg i = 0#32) ∧
      (∀ a, t.mem.read a = s.mem.read a) ∧ t.mem.length = s.mem.length ∧ t.inputs = rest ∧ t.rsp = none ∧
      t.log = s.log

/-- Rule R173: with no event at the input ports the block does nothing. -/
def Obligations.IdleStepChangesNothing : Prop :=
  ∀ s : State, s.inputs = [] → step s = .next s

/-- The host's own memory accesses (log entry 8, the model's choice): they touch the byte they name and nothing of the
CPU state; a store beyond the current length is refused. (Addresses from 0 on: log entry 7; growing is not bounded by
`P_ADDR_BITS`: log entry 24; both the model's choice.) -/
def Obligations.HostMemoryAccessLeavesCpu : Prop :=
  ∀ (s : State) (rest : List Input) (b : Byte), s.mem.wf = true →
    (s.inputs = Input.memGrow b :: rest → ∃ t, step s = .next t ∧ t.cpu = s.cpu ∧ t.inputs = rest ∧ t.rsp = s.rsp ∧
      t.log = s.log ∧ t.mem.length = s.mem.length + 1 ∧ t.mem.read s.mem.length = some b ∧
      ∀ a, a ≠ s.mem.length → t.mem.read a = s.mem.read a) ∧
    (∀ a, s.inputs = Input.memStore a b :: rest → a < s.mem.length → ∃ t, step s = .next t ∧ t.cpu = s.cpu ∧
      t.inputs = rest ∧ t.rsp = s.rsp ∧ t.log = s.log ∧ t.mem.length = s.mem.length ∧ t.mem.read a = some b ∧
      ∀ c, c ≠ a → t.mem.read c = s.mem.read c) ∧
    (∀ a, s.inputs = Input.memStore a b :: rest → s.mem.length ≤ a → step s = .refused (.memoryBeyondStore a))

/-! ### The meanings: results, completion and frames -/

/-- Rule R130: `auipc` completes, writes the pc it sees plus `immU` into `x[rd]`, register 0 like any other, and changes
nothing else. The wrap of the sum is decision D5 (log entry 4), register 0's being ordinary decision D2 (log entry 2). -/
def Obligations.AuipcWritesPcPlusImmediate : Prop :=
  ∀ (s : State) (rd : RegIdx) (immU : Word), ∃ t, exec (.auipc rd immU) s = .next t ∧
    (t.readReg rd).toNat = (s.cpu.pc.toNat + immU.toNat) % 2 ^ 32 ∧ SameButReg rd s t

/-- Rule R131: `add` completes, writes the sum of the two source registers' old values modulo 2^32 into `x[rd]` and
changes nothing else, for every choice of registers, `rd = src1`, `rd = src2` and register 0 among them. (That register 0
is read and written like any other is decision D2, log entry 2.) -/
def Obligations.AddWritesRegisterSum : Prop :=
  ∀ (s : State) (rd src1 src2 : RegIdx), ∃ t, exec (.add rd src1 src2) s = .next t ∧
    (t.readReg rd).toNat = ((s.readReg src1).toNat + (s.readReg src2).toNat) % 2 ^ 32 ∧ SameButReg rd s t

/-- Rule R132: `addi` completes, writes the source register's old value plus the immediate modulo 2^32 into `x[rd]` and
changes nothing else, for every choice of registers (register 0: decision D2, log entry 2). -/
def Obligations.AddiWritesRegisterPlusImmediate : Prop :=
  ∀ (s : State) (rd src1 : RegIdx) (immI : Word), ∃ t, exec (.addi rd src1 immI) s = .next t ∧
    (t.readReg rd).toNat = ((s.readReg src1).toNat + immI.toNat) % 2 ^ 32 ∧ SameButReg rd s t

/-! ### One request, from the raw word -/

/-- Rules R102, R105, R107: a request for a word the decoder reads as `i` advances the pc by 4, runs `exec i` on the state
with the incremented pc and answers OK. (The increment's wrap is decision D4, log entry 4.) -/
def Obligations.StepRunsDecodedInstruction : Prop :=
  ∀ (s : State) (w : Word) (rest : List Input) (i : Instr), s.inputs = Input.request w :: rest → decode w = .ok i →
    (∃ t, exec i { s with inputs := rest, cpu := { s.cpu with pc := s.cpu.pc + 4#32 } } = .next t) ∧
    ∀ t, exec i { s with inputs := rest, cpu := { s.cpu with pc := s.cpu.pc + 4#32 } } = .next t →
      step s = .next { t with rsp := some .ok, log := Response.ok :: t.log }

/-- Rules R130, R103, R107 on the raw word: bits 6..0 are 0010111; the destination is bits 11..7, the immediate bits
31..12 in place; the pc it adds to is the word's address plus 4. (Wraps: decisions D4, D5; the reading of `immU`:
spec/90_conflicts.md C2; register 0: D2.) -/
def Obligations.AuipcWordRequest : Prop :=
  ∀ (s : State) (w : Word) (rest : List Input) (d : RegIdx) (u : Nat), s.inputs = Input.request w :: rest →
    bits w 0 6 = .ok 0x17 → bits w 7 11 = .ok d.toNat → bits w 12 31 = .ok u →
    ∃ t, step s = .next t ∧ (t.readReg d).toNat = (s.cpu.pc.toNat + 4 + u * 4096) % 2 ^ 32 ∧
      (∀ j, j ≠ d → t.readReg j = s.readReg j) ∧ RequestDone rest .ok s t

/-- Rule R131 on the raw word: opcode 0110011, funct7 and funct3 zero; destination bits 11..7, sources bits 19..15 and
24..20; the sum of the old values modulo 2^32, no error raised; the pc is only advanced and memory not written. A word
with opcode 0110011 and any other funct7 or funct3 is unrecognized. (That rd = 0 writes register 0 is decision D2, log
entry 2; the pc's advance on an unrecognized word is spec/90_conflicts.md C1, log entry 12, and its wrap D4, log entry 4.) -/
def Obligations.AddWordRequest : Prop :=
  (∀ (s : State) (w : Word) (rest : List Input) (d s1 s2 : RegIdx), s.inputs = Input.request w :: rest →
    bits w 0 6 = .ok 0x33 → bits w 12 14 = .ok 0 → bits w 25 31 = .ok 0 →
    bits w 7 11 = .ok d.toNat → bits w 15 19 = .ok s1.toNat → bits w 20 24 = .ok s2.toNat →
    ∃ t, step s = .next t ∧
      (t.readReg d).toNat = ((s.readReg s1).toNat + (s.readReg s2).toNat) % 2 ^ 32 ∧
      (∀ j, j ≠ d → t.readReg j = s.readReg j) ∧ RequestDone rest .ok s t) ∧
  ∀ (s : State) (w : Word) (rest : List Input), s.inputs = Input.request w :: rest →
    bits w 0 6 = .ok 0x33 → (bits w 25 31 ≠ .ok 0 ∨ bits w 12 14 ≠ .ok 0) →
    ∃ t, step s = .next t ∧ (∀ j, t.readReg j = s.readReg j) ∧ RequestDone rest (.unrecognized w) s t

/-- Rule R132 on the raw word: opcode 0010011, funct3 zero; destination bits 11..7, source bits 19..15, and the immediate
is the unsigned value of bits 31..20, 0 to 4095 (zero-extended: decision D3, log entry 3; register 0: D2). A word with
opcode 0010011 and another funct3 is unrecognized. (The pc's advance on an unrecognized word is spec/90_conflicts.md C1,
log entry 12, and its wrap decision D4, log entry 4.) -/
def Obligations.AddiWordRequest : Prop :=
  (∀ (s : State) (w : Word) (rest : List Input) (d s1 : RegIdx) (v : Nat), s.inputs = Input.request w :: rest →
    bits w 0 6 = .ok 0x13 → bits w 12 14 = .ok 0 →
    bits w 7 11 = .ok d.toNat → bits w 15 19 = .ok s1.toNat → bits w 20 31 = .ok v →
    v ≤ 4095 ∧
    ∃ t, step s = .next t ∧ (t.readReg d).toNat = ((s.readReg s1).toNat + v) % 2 ^ 32 ∧
      (∀ j, j ≠ d → t.readReg j = s.readReg j) ∧ RequestDone rest .ok s t) ∧
  ∀ (s : State) (w : Word) (rest : List Input), s.inputs = Input.request w :: rest →
    bits w 0 6 = .ok 0x13 → bits w 12 14 ≠ .ok 0 →
    ∃ t, step s = .next t ∧ (∀ j, t.readReg j = s.readReg j) ∧ RequestDone rest (.unrecognized w) s t

/-- Rule R108 with the default table: a word that is neither an `auipc` nor an `add` nor an `addi` word gives the failure
response carrying the word; every register keeps its value, the pc has advanced, the memory is unchanged. (The pc's
advance on no match is spec/90_conflicts.md C1, log entry 12, its wrap decision D4, log entry 4, and the status code 1
decision D1, log entry 6.) -/
def Obligations.UnrecognizedWordRequest : Prop :=
  ∀ (s : State) (w : Word) (rest : List Input), s.inputs = Input.request w :: rest →
    w &&& 0x0000007F#32 ≠ 0x00000017#32 → w &&& 0xFE00707F#32 ≠ 0x00000033#32 →
    w &&& 0x0000707F#32 ≠ 0x00000013#32 →
    ∃ t, step s = .next t ∧ (∀ j, t.readReg j = s.readReg j) ∧ RequestDone rest (.unrecognized w) s t ∧
      t.rspStatus = some 1#1 ∧ t.rspWord = some w

/-- Rules R107, R108, R161, R166: every request of the default table completes with exactly one of two outcomes, OK if the
decoder reads the word and UNRECOGNIZED with the word if not; none faults or is refused. (The codes 0 and 1 of
`rsp_status`, and that `rsp_word` has no value on OK, are decision D1 and log entry 6; I18 leaves the latter open.) -/
def Obligations.EveryRequestCompletes : Prop :=
  ∀ (s : State) (w : Word) (rest : List Input), s.inputs = Input.request w :: rest →
    ∃ t, step s = .next t ∧
      (((∃ i, decode w = .ok i) ∧ t.rsp = some .ok ∧ t.rspStatus = some 0#1 ∧ t.rspWord = none) ∨
       ((∀ i, decode w ≠ .ok i) ∧ t.rsp = some (.unrecognized w) ∧ t.rspStatus = some 1#1 ∧ t.rspWord = some w))

/-- Rule R186: what `auipc` gives is relative to the word's address plus 4. The difference between `x[rd]` and the pc
after the request is the immediate; `auipc xD, 0` gives the address of the following word. (The wraps are decisions D4 and
D5, log entry 4; register 0: decision D2, log entry 2; the reading of `immU`: spec/90_conflicts.md C2, log entry 5.) -/
def Obligations.PcRelativeValuesCountFromNextWord : Prop :=
  ∀ (s : State) (rd : RegIdx) (immU : Word), immUWellFormed immU = true →
    ∃ t, step (s.withRequest (encode (.auipc rd immU))) = .next t ∧ t.readReg rd - t.cpu.pc = immU ∧
      t.cpu.pc = s.cpu.pc + 4#32

/-! ### Whole-machine rules of the step -/

/-- Rules R101, R106, R111, R161: the block itself never stops. A step answers a next state unless the event served is the
host storing beyond the length of its own store, which is refused by name (log entry 8, the model's choice). -/
def Obligations.OnlyHostStoreBeyondLengthStops : Prop :=
  ∀ s : State, safeStep s ∨ ∃ a b rest, s.inputs = Input.memStore a b :: rest ∧ s.mem.length ≤ a ∧
    step s = .refused (.memoryBeyondStore a) ∧ ¬ safeStep s

/-- Rule R103, for every table: a request that answers a next state has advanced the pc by 4, once, whether an entry
matched or not, and the action it ran saw the incremented pc; with the default table every request completes so. (The
wrap at the top of the range is decision D4, log entry 4; the no-match case is spec/90_conflicts.md C1, log entry 12. That
no appended action leaves another pc holds because one that writes the pc is refused: rule R106, decision D18, log entry
13.) -/
def Obligations.EveryRequestAdvancesPc : Prop :=
  ∀ (s : State) (w : Word) (rest : List Input), s.inputs = Input.request w :: rest →
    (∀ (T : Table) (t : State), stepWith T s = .next t → t.cpu.pc.toNat = (s.cpu.pc.toNat + 4) % 2 ^ 32 ∧
      ∀ e, T.firstMatch w = some e →
        (e.action { s.cpu with pc := BitVec.ofNat 32 (s.cpu.pc.toNat + 4) } w).perform s.mem = .ok (t.cpu, none)) ∧
    ∃ t, step s = .next t ∧ t.cpu.pc.toNat = (s.cpu.pc.toNat + 4) % 2 ^ 32

/-- Rules R23, R25: only requests and reset touch the CPU state. The pc changes only by a request's pre-increment or a
reset; a register changes only through a recognized word's action, and then it is `x[rd]`, or by a reset. -/
def Obligations.OnlyRequestsAndResetChangeCpu : Prop :=
  ∀ s t : State, step s = .next t →
    (t.cpu.pc ≠ s.cpu.pc → (∃ w rest, s.inputs = Input.request w :: rest) ∨ ∃ rest, s.inputs = Input.reset :: rest) ∧
    ∀ j : RegIdx, t.readReg j ≠ s.readReg j →
      (∃ w rest i, s.inputs = Input.request w :: rest ∧ decode w = .ok i ∧ bits w 7 11 = .ok j.toNat) ∨
      ∃ rest, s.inputs = Input.reset :: rest

/-- Rule R42: no request reads or writes memory. A request answers the same whatever the memory store holds, and leaves
the store as it was. -/
def Obligations.RequestsIgnoreMemory : Prop :=
  ∀ (s : State) (w : Word) (rest : List Input), s.inputs = Input.request w :: rest →
    ∃ t, step s = .next t ∧ t.mem = s.mem ∧
      ∀ m : Memory, step { s with mem := m } = .next { t with mem := m }

/-- Rules R30, R167: no sticky fault. What a step does to the CPU state, the memory and the input ports does not depend
on the responses given before. -/
def Obligations.PastResponsesDoNotMatter : Prop :=
  ∀ (s t : State) (r : Option Response) (l : List Response), step s = .next t →
    ∃ t', step { s with rsp := r, log := l } = .next t' ∧ t'.cpu = t.cpu ∧ t'.mem = t.mem ∧ t'.inputs = t.inputs ∧
      (∀ w rest, s.inputs = Input.request w :: rest → t'.rsp = t.rsp)

/-- A step with any table keeps the invariant: the memory store's canonical form, the pc a multiple of 4 (rule R27), the
response port in agreement with the record. (With any table this rests on the refusal of an action that writes the pc or
memory: rule R106, decision D18, log entry 13. The pc's wrap is decision D4, log entry 4; the store's form, log entry 7,
the host's events on it, log entry 8, and the port and the record, log entries 6 and 9, are the model's.) -/
def Obligations.StepKeepsInvariant : Prop :=
  ∀ s t : State, s.Inv → (step s = .next t → t.Inv) ∧ ∀ T : Table, stepWith T s = .next t → t.Inv

/-- Reset meets the invariant, whatever canonical store the host provides. (The store's form, its bytes at the addresses
from 0 on, is log entry 7, and the port that is empty at reset and the record are log entries 6 and 9, the model's.) -/
def Obligations.ResetMeetsInvariant : Prop :=
  State.reset.Inv ∧ ∀ bs : List Byte, (State.resetWith (Memory.ofBytes bs)).Inv

/-- Rule R27: n requests in a row, whatever their words and outcomes, all complete and leave the pc advanced by 4 n
modulo 2^32, with one response recorded for each; from reset the pc is 4 n modulo 2^32. (That an unrecognized word
advances the pc too is spec/90_conflicts.md C1, log entry 12; the wrap is decision D4, log entry 4; the record is log
entry 9.) -/
def Obligations.PcCountsRequests : Prop :=
  ∀ (ws : List Word) (s : State) (rest : List Input), s.inputs = ws.map Input.request ++ rest →
    ∃ t, Sys2Proof.core.run ws.length s = .next t ∧
      t.cpu.pc.toNat = (s.cpu.pc.toNat + 4 * ws.length) % 2 ^ 32 ∧ t.inputs = rest ∧ t.mem = s.mem ∧
      t.log.length = s.log.length + ws.length ∧
      (s.cpu = Cpu.reset → t.cpu.pc.toNat = 4 * ws.length % 2 ^ 32)

/-- Decision D12 (log entry 9, the model's record): a run of requests records one response for each word, in order (the
newest first), OK for a word the decoder reads and UNRECOGNIZED with the word for any other. So no UNRECOGNIZED response
is recorded iff every word of the run is recognized. -/
def Obligations.RunRecordsEveryResponse : Prop :=
  ∀ (ws : List Word) (s : State) (rest : List Input), s.inputs = ws.map Input.request ++ rest →
    ∃ t, Sys2Proof.core.run ws.length s = .next t ∧
      t.log = (ws.map (fun w => if decode w = .error (.unrecognizedInstruction w) then Response.unrecognized w
        else Response.ok)).reverse ++ s.log ∧
      (s.noUnrecognized → (t.noUnrecognized ↔ ∀ w ∈ ws, ∃ i, decode w = .ok i))

/-- Rule R116: every 32-bit value can be put into any register by two requests, an `auipc` followed by an `addi`, from
any state. (Register 0 among the registers: decision D2, log entry 2; the wrap of the `auipc` sum: decision D5, and of the
pc: decision D4, log entry 4; the immediates: log entries 3 and 5.) -/
def Obligations.TwoRequestsReachAnyRegisterValue : Prop :=
  ∀ (s : State) (r : RegIdx) (v : Word), ∃ immU immI : Word,
    immUWellFormed immU = true ∧ immIWellFormed immI = true ∧
    ∃ t, Sys2Proof.core.run 2 ((s.withRequest (encode (.addi r r immI))).withRequest (encode (.auipc r immU))) = .next t ∧
      t.readReg r = v ∧ ∀ j, j ≠ r → t.readReg j = s.readReg j

/-! ### The bitfield extractor and the accessors -/

/-- Rule R66: within its precondition `bits(word, start, end)` is floor(word / 2^start) mod 2^(end-start+1), the unsigned
integer formed by bits start to end shifted down to position 0; the full-width case returns the word unchanged. -/
def Obligations.BitsFormsTheField : Prop :=
  ∀ (w : Word) (lo hi : Nat), lo ≤ hi → hi ≤ 31 →
    (∃ v, bits w lo hi = .ok v ∧ v = w.toNat / 2 ^ lo % 2 ^ (hi - lo + 1) ∧ v < 2 ^ (hi - lo + 1) ∧
      ∀ k, v.testBit k = (decide (k ≤ hi - lo) && w.getLsbD (lo + k))) ∧
    bits w 0 31 = .ok w.toNat

/-- Rule R67 (decision D16): a call of `bits` outside its precondition is refused. -/
def Obligations.BitsRefusesBadRange : Prop :=
  ∀ (w : Word) (lo hi : Nat), lo > hi ∨ hi > 31 → bits w lo hi = .error (.badBitRange lo hi)

/-- Rules R68, R69, R70: the register accessors are the fields 19..15, 24..20 and 11..7. -/
def Obligations.RegisterAccessorsAreFields : Prop :=
  ∀ w : Word, bits w 15 19 = .ok (src1Of w).toNat ∧ bits w 20 24 = .ok (src2Of w).toNat ∧
    bits w 7 11 = .ok (rdOf w).toNat ∧ (src1Of w).toNat ≤ 31 ∧ (src2Of w).toNat ≤ 31 ∧ (rdOf w).toNat ≤ 31

/-- Rules R71, R72: `immI` is the field 31..20 as an unsigned value 0 to 4095 (zero-extended: decision D3, log entry 3);
`immU` is the field 31..12 in place, its bits 11..0 zero (spec/90_conflicts.md C2, log entry 5). -/
def Obligations.ImmediatesAreFields : Prop :=
  ∀ w : Word, bits w 20 31 = .ok (immIOf w).toNat ∧ (immIOf w).toNat ≤ 4095 ∧
    (∃ u, bits w 12 31 = .ok u ∧ (immUOf w).toNat = u * 4096) ∧ (immUOf w).toNat % 4096 = 0 ∧
    bits (immUOf w) 12 31 = bits w 12 31

/-! ### The pattern matcher -/

/-- Rule R76: `matches(w, p)` holds iff the cleaned pattern has exactly 32 characters, all of the alphabet, and each
position is a wildcard or agrees with its bit, the first character with bit 31. -/
def Obligations.MatcherTestsEveryPosition : Prop :=
  ∀ (w : Word) (p : Pattern), wordMatches w p = true ↔
    ∃ h : (cleaned p).length = 32, (∀ c ∈ cleaned p, c = '0' ∨ c = '1' ∨ c = '?') ∧
      ∀ (k : Nat) (hk : k < 32), (cleaned p)[k] = '?' ∨
        ((cleaned p)[k] = '0' ∧ w.getLsbD (31 - k) = false) ∨ ((cleaned p)[k] = '1' ∧ w.getLsbD (31 - k) = true)

/-- Rule R77 (decision D9): the matcher fails closed. A pattern that is not well-formed matches no word. -/
def Obligations.MalformedPatternMatchesNothing : Prop :=
  ∀ (w : Word) (p : Pattern), patternWellFormed p = false → wordMatches w p = false

/-- Rule R78: a well-formed pattern is equivalent to its precompiled mask and match values. -/
def Obligations.PatternIsMaskAndMatch : Prop :=
  ∀ (w : Word) (p : Pattern), patternWellFormed p = true →
    wordMatches w p = (w &&& patternMask p == patternMatch p)

/-- Rule R81: the pattern strings of the default table recognize exactly the words its mask and match columns say. -/
def Obligations.DefaultPatternsAreMaskCompares : Prop :=
  ∀ w : Word, wordMatches w patternAuipc = (w &&& 0x0000007F#32 == 0x00000017#32) ∧
    wordMatches w patternAdd = (w &&& 0xFE00707F#32 == 0x00000033#32) ∧
    wordMatches w patternAddi = (w &&& 0x0000707F#32 == 0x00000013#32)

/-- Rule R79: reflexivity and wildcard widening. The pattern made of a word's binary rendering with the positions in `S`
replaced by `?` matches the word itself, and exactly the words that agree with it on the other positions. -/
def Obligations.WideningMatchesAgreeingWords : Prop :=
  ∀ (w v : Word) (S : Nat → Bool),
    wordMatches w (renderBinary w) = true ∧
    (wordMatches v ((renderBinary w).zipIdx.map (fun c => if S c.2 then '?' else c.1)) = true ↔
      ∀ k, k < 32 → S k = false → v.getLsbD (31 - k) = w.getLsbD (31 - k))

/-- Rule R79: inserting whitespace anywhere in a pattern does not change which words it matches. (Which characters are
whitespace is decision D9, log entry 10.) -/
def Obligations.WhitespaceIsCosmetic : Prop :=
  ∀ (w : Word) (p q space : Pattern), (∀ c ∈ space, isPatternSpace c = true) →
    wordMatches w (p ++ space ++ q) = wordMatches w (p ++ q)

/-! ### The encoding -/

/-- Words written out from the encodings of rules R62 to R64 and R81 decode to the instructions they stand for. -/
def Obligations.WrittenWordsDecode : Prop :=
  decode 0b00000000000000000001000010010111#32 = .ok (.auipc 1#5 0x00001000#32) ∧
  decode 0b00000000000100001000001000110011#32 = .ok (.add 4#5 1#5 1#5) ∧
  decode 0b00000000010000000000000010010011#32 = .ok (.addi 1#5 0#5 4#32) ∧
  decode 0b00000000000000000000000001101111#32 = .error (.unrecognizedInstruction 0x0000006F#32)

/-- Decoding an encoded well-formed instruction gives it back, every operand at every value the encoding admits. -/
def Obligations.DecodeOfEncode : Prop :=
  ∀ i : Instr, i.wellFormed = true → decode (encode i) = .ok i

/-- What the decoder reads is well-formed, and encoding it gives the word back: no word is read as another's
instruction. -/
def Obligations.EncodeOfDecode : Prop :=
  ∀ (w : Word) (i : Instr), decode w = .ok i → i.wellFormed = true ∧ encode i = w

/-- Rule R83: the unrecognized words of the default table, told by their opcode, funct3 and funct7 fields. -/
def Obligations.UnrecognizedWordsByField : Prop :=
  ∀ w : Word, decode w = .error (.unrecognizedInstruction w) ↔
    (bits w 0 6 ≠ .ok 0x17 ∧ (bits w 0 6 = .ok 0x33 → bits w 25 31 ≠ .ok 0 ∨ bits w 12 14 ≠ .ok 0) ∧
      (bits w 0 6 = .ok 0x13 → bits w 12 14 ≠ .ok 0))

/-- Rule R83: how many words each default entry recognizes, and how many none does. -/
def Obligations.RecognizedWordCounts : Prop :=
  (List.range 3).map (fun k => Nat.card { w : Word // (defaultTable.hits w)[k]? = some true }) =
    [2 ^ 25, 2 ^ 15, 2 ^ 22] ∧
  Nat.card { w : Word // defaultTable.anyHit w = false } = 4257185792

/-- Rule R82: the default entries are pairwise disjoint. No word hits two of them, so the order of the table changes
no selection. -/
def Obligations.DefaultEntriesDisjoint : Prop :=
  ∀ (w : Word) (j k : Nat), (defaultTable.hits w)[j]? = some true → (defaultTable.hits w)[k]? = some true → j = k

/-! ### The table and the controller -/

/-- Rules R85, R102: the controller that tries the default table's patterns in order and runs raw-word actions, and the
block that decodes first and runs `exec`, take the same step from every state. -/
def Obligations.DefaultTableStepIsStep : Prop :=
  ∀ s : State, stepWith defaultTable s = step s

/-- Rule R104: the first entry whose pattern matches is selected; no later entry is tested or run. The request runs that
entry's action on the state with the incremented pc, whatever entries follow. (An action that is refused refuses the request:
one that writes the pc or memory, rule R106, decision D18, log entry 13; one that reads beyond the store, I15, log entry
25.) -/
def Obligations.FirstMatchWins : Prop :=
  ∀ (T : Table) (earlier later : List Entry) (e : Entry) (w : Word) (s : State),
    T.entries = earlier ++ e :: later → (∀ e' ∈ earlier, wordMatches w e'.pattern = false) →
    wordMatches w e.pattern = true →
    patternTests w T.entries = earlier.length + 1 ∧ T.sel w = some earlier.length ∧
    (∀ t, runAction e.action w s.advancePc = .next t → decodeAndExecuteWith T w s = .next (t.respond .ok)) ∧
    (∀ r, runAction e.action w s.advancePc = .refused r → decodeAndExecuteWith T w s = .refused r)

/-- Rule R108, for every table: when no entry matches, the response is UNRECOGNIZED with the word, the pc has advanced,
and registers and memory keep their values. (That the pc advances here is spec/90_conflicts.md C1, log entry 12, its wrap
decision D4, log entry 4, and the status code 1 decision D1, log entry 6.) -/
def Obligations.UnmatchedRequestReportsWord : Prop :=
  ∀ (T : Table) (w : Word) (s : State) (rest : List Input), s.inputs = Input.request w :: rest →
    (∀ e ∈ T.entries, wordMatches w e.pattern = false) →
    ∃ t, stepWith T s = .next t ∧ (∀ j, t.readReg j = s.readReg j) ∧ RequestDone rest (.unrecognized w) s t ∧
      t.rspStatus = some 1#1 ∧ t.rspWord = some w

/-- Rule R113: appending entries changes no request whose word the table already matches; only words it leaves
unrecognized can change outcome, to a match of an appended entry. -/
def Obligations.AppendingKeepsMatchedRequests : Prop :=
  ∀ (T U : Table) (w : Word) (s : State),
    (T.anyHit w = true → decodeAndExecuteWith (T.append U) w s = decodeAndExecuteWith T w s) ∧
    (T.anyHit w = false → decodeAndExecuteWith (T.append U) w s = decodeAndExecuteWith U w s)

/-- Rule R85: `any_hit` is true iff some entry hits, and then `sel` is the least `k` that hits. -/
def Obligations.SelIsTheLeastHit : Prop :=
  ∀ (T : Table) (w : Word),
    (T.anyHit w = true ↔ ∃ k : Nat, (T.hits w)[k]? = some true) ∧ (T.anyHit w = false ↔ T.sel w = none) ∧
    ∀ k, T.sel w = some k ↔ ((T.hits w)[k]? = some true ∧ ∀ j < k, (T.hits w)[j]? = some false)

/-- Rule R80 (decision D9): a table is built iff every pattern is well-formed, with its entries in order; else it is
refused, naming the first malformed entry. -/
def Obligations.BuildRefusesMalformedTable : Prop :=
  ∀ es : List Entry,
    ((∀ e ∈ es, patternWellFormed e.pattern = true) → ∃ T, buildTable es = .ok T ∧ T.entries = es) ∧
    ∀ (earlier later : List Entry) (e : Entry), es = earlier ++ e :: later →
      (∀ e' ∈ earlier, patternWellFormed e'.pattern = true) → patternWellFormed e.pattern = false →
      buildTable es = .error (.malformedPattern earlier.length)

/-- Rule R106, decision D18 (log entry 13): with any table, a request whose selected action reads within the store and
gives its result is refused if that result writes the pc or memory, and completes with the CPU state the action returned
if it writes neither. -/
def Obligations.ActionsWriteRegistersOnly : Prop :=
  ∀ (T : Table) (w : Word) (s : State) (e : Entry) (cpu : Cpu) (written : Option Memory), T.firstMatch w = some e →
    (e.action s.advancePc.cpu w).perform s.mem = .ok (cpu, written) →
    (cpu.pc ≠ s.advancePc.cpu.pc ∨ written ≠ none → decodeAndExecuteWith T w s = .refused .actionWritesPcOrMemory) ∧
    (cpu.pc = s.advancePc.cpu.pc → written = none →
      ∃ t, decodeAndExecuteWith T w s = .next t ∧ t.cpu = cpu ∧ t.mem = s.mem ∧
        t.inputs = s.inputs ∧ t.rsp = some .ok ∧ t.log = Response.ok :: s.log)

/-- Rule R41 with spec/93_implementation_defined.md I15 (log entry 25): with any table, a request whose selected action
reads an address beyond the store's current length is refused, naming such an address; one whose action reads no such
address has a result, and is not refused for its reads. (The store's bytes are at the addresses from 0 on: log entry 7.) -/
def Obligations.ActionReadBeyondStoreIsRefused : Prop :=
  ∀ (T : Table) (w : Word) (s : State) (e : Entry), s.mem.wf = true → T.firstMatch w = some e →
    (∀ a ∈ (e.action s.advancePc.cpu w).reads s.mem, s.mem.length ≤ a →
      decodeAndExecuteWith T w s = .refused (.memoryBeyondStore a)) ∧
    ((∀ a ∈ (e.action s.advancePc.cpu w).reads s.mem, a < s.mem.length) →
      (∃ r, (e.action s.advancePc.cpu w).perform s.mem = .ok r) ∧
      ∀ a, decodeAndExecuteWith T w s ≠ .refused (.memoryBeyondStore a))

/-- Rule R106: every total function from (CPU state, memory, word) to (CPU state, memory) is an action of the model. On a
canonical store it is refused no read, and its result is the function's, the store given as written iff it differs from
the one before. (How an action is written out read by read is log entry 25, the model's choice.) -/
def Obligations.TotalFunctionsAreActions : Prop :=
  ∀ (f : Cpu → Memory → Word → Cpu × Memory) (cpu : Cpu) (m : Memory) (w : Word), m.wf = true →
    (∀ a ∈ (Action.ofTotal f cpu w).reads m, a < m.length) ∧
    (Action.ofTotal f cpu w).perform m =
      .ok ((f cpu m w).1, if (f cpu m w).2 = m then none else some (f cpu m w).2)

/-- Rule R111: a request tests at most `length(TABLE)` patterns, and tests all of them only if none before the last
matches. -/
def Obligations.PatternTestsBounded : Prop :=
  ∀ (T : Table) (w : Word), patternTests w T.entries ≤ T.entries.length ∧
    (T.anyHit w = false → patternTests w T.entries = T.entries.length) ∧
    ∀ k, T.sel w = some k → patternTests w T.entries = k + 1

/-- Rule R109: a request's phases end in Committed when its response is OK and in Faulted when it is UNRECOGNIZED, and
the pc has been advanced in both. (In Faulted that is spec/90_conflicts.md C1, log entry 12; the wrap is decision D4, log
entry 4. In Committed it is an advance by exactly 4 because an action that writes the pc is refused: rule R106, decision
D18, log entry 13.) -/
def Obligations.PhasesFollowResponse : Prop :=
  ∀ (T : Table) (w : Word) (s t : State), decodeAndExecuteWith T w s = .next t →
    ((requestPhases T w).head? = some .fetched) ∧
    ((requestPhases T w).getLast? = some .committed ↔ t.rsp = some .ok) ∧
    ((requestPhases T w).getLast? = some .faulted ↔ t.rsp = some (.unrecognized w)) ∧
    t.cpu.pc.toNat = (s.cpu.pc.toNat + 4) % 2 ^ 32

/-- Rule R184 (decision D19): booting builds the table as given, constructs the default CPU state and provides the memory
store with the bytes of `P_MEM_INIT`; a malformed table boots nothing. (That these bytes have the addresses from 0 on and
an address beyond them has no value is log entry 7, and that booting succeeds whatever their number, `P_ADDR_BITS`
notwithstanding, is log entry 24, both the model's choice; the refused table is decision D9, log entry 10; the empty port
and queue, log entries 6 and 1.) -/
def Obligations.BootProvidesTableStateMemory : Prop :=
  ∀ (p : Config.MemParams) (es : List Entry),
    (entriesWellFormed es = true → ∃ T s, boot p es = .ok (T, s) ∧ T.entries = es ∧ s.cpu = Cpu.reset ∧
      s.inputs = [] ∧ s.rsp = none ∧ ∀ a, s.mem.read a = p.init[a]?) ∧
    (entriesWellFormed es = false → ∀ x, boot p es ≠ .ok x)

/-- Rules R53, R172: blocks are independent. A step of one block leaves every other as it was, and what it does depends on
that block alone. (Instances as a list of states of which one steps: log entry 21.) -/
def Obligations.InstancesAreIndependent : Prop :=
  ∀ (T : Table) (k : Nat) (blocks after : List State), stepAmong T k blocks = some (.next after) →
    after.length = blocks.length ∧ (∀ j, j ≠ k → after[j]? = blocks[j]?) ∧
    ∃ s t, blocks[k]? = some s ∧ stepWith T s = .next t ∧ after[k]? = some t

/-! ### Accessors and diagnostics -/

/-- Rule R115 (decision D16): the read accessors show the pc and, for an index 0 to 31, the register; any other index is
refused. -/
def Obligations.AccessorsReadPcAndRegisters : Prop :=
  ∀ s : State, s.pcOut = s.cpu.pc ∧ (∀ i : RegIdx, s.regOut i.toNat = .ok (s.readReg i)) ∧
    ∀ n : Nat, 32 ≤ n → s.regOut n = .error (.registerIndexOutOfRange n)

/-- Rule R160, decision D15 (log entry 17): the rendering has 8 digits, lowercase hexadecimal, and they read back as the
word. -/
def Obligations.HexRenderingReadsBack : Prop :=
  ∀ w : Word, (renderHex w).length = 8 ∧ (∀ c ∈ renderHex w, c ∈ "0123456789abcdef".toList) ∧
    readDigits 16 (renderHex w) 0 = some w.toNat

/-! ### The memory store -/

/-- The store's laws (rule R40; log entries 7, 8 and 24, the model's choice): a byte written or grown is read back, every
other byte reads as before, and the length grows only by growing. -/
def Obligations.MemoryReadsWhatWasWritten : Prop :=
  ∀ (m m' : Memory) (a : Nat) (b : Byte), m.wf = true →
    (m.write a b = .ok m' → m'.length = m.length ∧ ∀ c, m'.read c = if c = a then some b else m.read c) ∧
    (m.grow b).length = m.length + 1 ∧ ∀ c, (m.grow b).read c = if c = m.length then some b else m.read c

/-- The load and store primitives (rule R11; log entry 15, the model's choice) agree under every byte order and address
width: what `MemWrite` stored, `MemRead` loads, modulo the width, and bytes outside are as before. -/
def Obligations.MemReadAfterMemWrite : Prop :=
  ∀ (p : Config.MemParams) (m m' : Memory) (addr n v : Nat), m.wf = true → memWrite p m addr n v = .ok m' →
    memRead p m' addr n = .ok (v % 256 ^ n) ∧
    ∀ c, c < addr ∨ addr + n ≤ c → m'.read c = m.read c

/-! ### The assembler -/

/-- Rule R86, decision D10 (log entry 18): a line of text that assembles gives a word that decodes to the line's
instruction. -/
def Obligations.AssembledLinesDecode : Prop :=
  ∀ (text : List Char) (w : Word), assemble text = some w →
    ∃ a i, readAsm text = some a ∧ a.wellFormed = true ∧ a.toInstr = some i ∧ decode w = .ok i ∧ asmLineOf i = a

/-- Rule R86, decision D10 (log entry 18): every well-formed instruction's line, written out in text, assembles to its word. -/
def Obligations.WrittenLinesAssemble : Prop :=
  ∀ i : Instr, i.wellFormed = true → assemble (writeAsm (asmLineOf i)) = some (encode i)
end

