-- ==== Sys2Proof/Laws/Decode.lean ====
section
/-!
SUPPORT. What the bitfield extractor and the decoder can answer, said once.
-/

namespace Sys2Proof

/-- What `bits` answers when it answers. -/
theorem bits_ok {w : Word} {lo hi v : Nat} (h : bits w lo hi = .ok v) :
    lo ≤ hi ∧ hi ≤ 31 ∧ v = w.toNat / 2 ^ lo % 2 ^ (hi - lo + 1) := by
  unfold bits at h
  split at h
  · rename_i hr
    exact ⟨hr.1, hr.2, by simpa using h.symm⟩
  · cases h

/-- What the decoder can read from a word: one of the three entries hits, and the operands are its fields. -/
theorem decode_ok {w : Word} {i : Instr} (h : decode w = .ok i) :
    (hitsAuipc w = true ∧ i = .auipc (rdOf w) (immUOf w)) ∨
    (hitsAdd w = true ∧ i = .add (rdOf w) (src1Of w) (src2Of w)) ∨
    (hitsAddi w = true ∧ i = .addi (rdOf w) (src1Of w) (immIOf w)) := by
  unfold decode at h
  repeat' split at h
  all_goals simp_all

/-- The decoder's only rejection of a word is UnrecognizedInstruction with that word. -/
theorem decode_error {w : Word} {e : DecodeError} (h : decode w = .error e) : e = .unrecognizedInstruction w := by
  unfold decode at h
  repeat' split at h
  all_goals simp_all

end Sys2Proof
end

