-- ==== Sys2Proof/Laws/Memory.lean ====
section
/-!
SUPPORT. The canonical form of the memory store: what it means, that reset's store has it, and that every memory
operation keeps it.
-/

namespace Sys2Proof.Machine

theorem Memory.wf_iff (m : Memory) : m.wf = true ↔ m.map Prod.fst = List.range m.length := by
  simp [Memory.wf]

/-- The canonical form lists the addresses strictly rising. -/
theorem Memory.wf_strictly_rising {m : Memory} (h : m.wf = true) : (m.map Prod.fst).Pairwise (· < ·) := by
  rw [Memory.wf_iff] at h
  rw [h]
  exact List.pairwise_lt_range

@[simp] theorem Memory.wf_nil : Memory.wf [] = true := rfl

@[simp] theorem Memory.length_grow (m : Memory) (b : Byte) : (m.grow b).length = m.length + 1 := by
  simp [Memory.grow]

theorem Memory.wf_grow {m : Memory} (b : Byte) (h : m.wf = true) : (m.grow b).wf = true := by
  rw [Memory.wf_iff] at h ⊢
  simp [Memory.grow, h, List.range_succ]

/-- What a byte store can do: within the length it answers the store with that one byte replaced. -/
theorem Memory.write_ok {m m' : Memory} {a : Nat} {b : Byte} (h : m.write a b = .ok m') :
    a < m.length ∧ m' = m.map (fun c => if c.1 = a then (a, b) else c) := by
  unfold Memory.write at h
  split at h
  · exact ⟨‹_›, by simpa using h.symm⟩
  · cases h

theorem Memory.write_error {m : Memory} {a : Nat} {b : Byte} {r : Refusal} (h : m.write a b = .error r) :
    m.length ≤ a ∧ r = .memoryBeyondStore a := by
  unfold Memory.write at h
  split at h
  · cases h
  · exact ⟨by omega, by simpa using h.symm⟩

theorem Memory.length_write {m m' : Memory} {a : Nat} {b : Byte} (h : m.write a b = .ok m') :
    m'.length = m.length := by
  simp [(Memory.write_ok h).2]

theorem Memory.wf_write {m m' : Memory} {a : Nat} {b : Byte} (hm : m.wf = true) (h : m.write a b = .ok m') :
    m'.wf = true := by
  obtain ⟨-, rfl⟩ := Memory.write_ok h
  rw [Memory.wf_iff] at hm ⊢
  rw [List.length_map, ← hm, List.map_map]
  apply List.map_congr_left
  intro c _
  simp only [Function.comp]
  split <;> simp_all

theorem Memory.wf_writeBytes {bs : List Byte} : ∀ {m m' : Memory} {a : Nat}, m.wf = true →
    m.writeBytes a bs = .ok m' → m'.wf = true := by
  induction bs with
  | nil => intro m m' a hm h; cases h; exact hm
  | cons b bs ih =>
    intro m m' a hm h
    unfold Memory.writeBytes at h
    split at h
    · cases h
    · exact ih (Memory.wf_write hm ‹_›) h

theorem memWrite_keeps_wf {p : Config.MemParams} {m m' : Memory} {addr n v : Nat} (hm : m.wf = true)
    (h : memWrite p m addr n v = .ok m') : m'.wf = true := by
  unfold memWrite at h
  split at h
  · exact Memory.wf_writeBytes hm h
  · cases h

/-- What the load primitive can do: all bytes have a value and the access fits the address width. -/
theorem memRead_ok {p : Config.MemParams} {m : Memory} {addr n v : Nat} (h : memRead p m addr n = .ok v) :
    addr + n ≤ 2 ^ p.addrBits ∧
    ∃ bs, m.readBytes addr n = .ok bs ∧ v = littleEndianValue (orderBytes p.byteOrder bs) := by
  unfold memRead at h
  split at h
  · split at h
    · exact ⟨‹_›, _, ‹_›, by simpa using h.symm⟩
    · cases h
  · cases h

/-- What the store primitive can do: the value's bytes, ordered, are written from the address on. -/
theorem memWrite_ok {p : Config.MemParams} {m m' : Memory} {addr n v : Nat} (h : memWrite p m addr n v = .ok m') :
    addr + n ≤ 2 ^ p.addrBits ∧ m.writeBytes addr (orderBytes p.byteOrder (littleEndianBytes n v)) = .ok m' := by
  unfold memWrite at h
  split at h
  · exact ⟨‹_›, h⟩
  · cases h

theorem Memory.wf_ofBytes (bs : List Byte) : (Memory.ofBytes bs).wf = true := by
  rw [Memory.wf_iff]
  simp [Memory.ofBytes, List.map_fst_zip]

/-- A canonical store is the store of its bytes. -/
theorem Memory.ofBytes_bytes {m : Memory} (h : m.wf = true) : Memory.ofBytes (m.map Prod.snd) = m := by
  rw [Memory.wf_iff] at h
  rw [Memory.ofBytes, List.length_map, ← h]
  exact (List.zip_of_prod rfl rfl).symm

theorem Memory.lookup_range' (bs : List Byte) (k a : Nat) :
    List.lookup a ((List.range' k bs.length).zip bs) = if k ≤ a then bs[a - k]? else none := by
  induction bs generalizing k with
  | nil => simp
  | cons b bs ih =>
    simp only [List.length_cons, List.range'_succ, List.zip_cons_cons, List.lookup]
    by_cases h : a = k
    · simp [h]
    · rw [show (a == k) = false by simpa using h]
      simp only [ih]
      by_cases h2 : k ≤ a
      · rw [if_pos (by omega), if_pos h2, show a - k = (a - (k + 1)) + 1 by omega, List.getElem?_cons_succ]
      · rw [if_neg (by omega), if_neg h2]

/-- The store of the bytes `bs` reads as `bs`. -/
@[simp] theorem Memory.read_ofBytes (bs : List Byte) (a : Nat) : (Memory.ofBytes bs).read a = bs[a]? := by
  simp [Memory.read, Memory.ofBytes, List.range_eq_range', Memory.lookup_range']

/-- A canonical store has no value at an address iff the address is not below its length. -/
theorem Memory.read_eq_none_iff {m : Memory} (h : m.wf = true) (a : Nat) : m.read a = none ↔ m.length ≤ a := by
  rw [← Memory.ofBytes_bytes h, Memory.read_ofBytes]
  simp [Memory.ofBytes]

theorem State.reset_mem_wf : State.reset.mem.wf = true := rfl

end Sys2Proof.Machine
end

