-- ==== Sys2Proof/Laws/State.lean ====
section
/-!
SUPPORT. One lemma per field per update of State, the register file's read-after-write laws, and the adder.
-/

namespace Sys2Proof.Machine

/-! ### The adder -/

theorem add32_eq (a b : Word) : add32 a b = a + b := by
  apply BitVec.eq_of_toNat_eq
  simp [add32, BitVec.toNat_add]

@[simp] theorem add32_toNat (a b : Word) : (add32 a b).toNat = (a.toNat + b.toNat) % 2 ^ 32 := by
  simp [add32]

/-! ### The register file -/

@[simp] theorem Cpu.writeReg_pc (c : Cpu) (i : RegIdx) (v : Word) : (c.writeReg i v).pc = c.pc := rfl

@[simp] theorem Cpu.readReg_writeReg_same (c : Cpu) (i : RegIdx) (v : Word) : (c.writeReg i v).readReg i = v := by
  simp [Cpu.readReg, Cpu.writeReg]

theorem Cpu.readReg_writeReg_ne (c : Cpu) {i j : RegIdx} (v : Word) (h : j ≠ i) :
    (c.writeReg i v).readReg j = c.readReg j := by
  have : i.toNat ≠ j.toNat := fun e => h (BitVec.eq_of_toNat_eq e.symm)
  simp [Cpu.readReg, Cpu.writeReg, this]

@[simp] theorem Cpu.writePc_pc (c : Cpu) (v : Word) : (c.writePc v).pc = v := rfl
@[simp] theorem Cpu.writePc_regs (c : Cpu) (v : Word) : (c.writePc v).regs = c.regs := rfl
@[simp] theorem Cpu.readReg_writePc (c : Cpu) (v : Word) (i : RegIdx) : (c.writePc v).readReg i = c.readReg i := rfl
@[simp] theorem Cpu.reset_pc : Cpu.reset.pc = 0#32 := rfl

@[simp] theorem Cpu.readReg_reset (i : RegIdx) : Cpu.reset.readReg i = 0#32 := by
  simp [Cpu.readReg, Cpu.reset]

/-! ### Writing a register of the block -/

@[simp] theorem State.writeReg_cpu (s : State) (i : RegIdx) (v : Word) : (s.writeReg i v).cpu = s.cpu.writeReg i v := rfl
@[simp] theorem State.writeReg_mem (s : State) (i : RegIdx) (v : Word) : (s.writeReg i v).mem = s.mem := rfl
@[simp] theorem State.writeReg_inputs (s : State) (i : RegIdx) (v : Word) : (s.writeReg i v).inputs = s.inputs := rfl
@[simp] theorem State.writeReg_rsp (s : State) (i : RegIdx) (v : Word) : (s.writeReg i v).rsp = s.rsp := rfl
@[simp] theorem State.writeReg_log (s : State) (i : RegIdx) (v : Word) : (s.writeReg i v).log = s.log := rfl

@[simp] theorem State.readReg_writeReg_same (s : State) (i : RegIdx) (v : Word) : (s.writeReg i v).readReg i = v :=
  s.cpu.readReg_writeReg_same i v

theorem State.readReg_writeReg_ne (s : State) {i j : RegIdx} (v : Word) (h : j ≠ i) :
    (s.writeReg i v).readReg j = s.readReg j :=
  s.cpu.readReg_writeReg_ne v h

/-! ### The pc pre-increment -/

@[simp] theorem State.advancePc_cpu (s : State) : s.advancePc.cpu = s.cpu.writePc (add32 s.cpu.pc 4#32) := rfl
@[simp] theorem State.advancePc_mem (s : State) : s.advancePc.mem = s.mem := rfl
@[simp] theorem State.advancePc_inputs (s : State) : s.advancePc.inputs = s.inputs := rfl
@[simp] theorem State.advancePc_rsp (s : State) : s.advancePc.rsp = s.rsp := rfl
@[simp] theorem State.advancePc_log (s : State) : s.advancePc.log = s.log := rfl
@[simp] theorem State.readReg_advancePc (s : State) (i : RegIdx) : s.advancePc.readReg i = s.readReg i := rfl

/-! ### Giving a response -/

@[simp] theorem State.respond_cpu (r : Response) (s : State) : (s.respond r).cpu = s.cpu := rfl
@[simp] theorem State.respond_mem (r : Response) (s : State) : (s.respond r).mem = s.mem := rfl
@[simp] theorem State.respond_inputs (r : Response) (s : State) : (s.respond r).inputs = s.inputs := rfl
@[simp] theorem State.respond_rsp (r : Response) (s : State) : (s.respond r).rsp = some r := rfl
@[simp] theorem State.respond_log (r : Response) (s : State) : (s.respond r).log = r :: s.log := rfl
@[simp] theorem State.readReg_respond (r : Response) (s : State) (i : RegIdx) : (s.respond r).readReg i = s.readReg i := rfl
@[simp] theorem State.raiseUnrecognized_eq (w : Word) (s : State) :
    s.raiseUnrecognized w = s.respond (.unrecognized w) := rfl

/-! ### Reset -/

@[simp] theorem State.applyReset_cpu (s : State) : s.applyReset.cpu = Cpu.reset := rfl
@[simp] theorem State.applyReset_mem (s : State) : s.applyReset.mem = s.mem := rfl
@[simp] theorem State.applyReset_inputs (s : State) : s.applyReset.inputs = s.inputs := rfl
@[simp] theorem State.applyReset_rsp (s : State) : s.applyReset.rsp = none := rfl
@[simp] theorem State.applyReset_log (s : State) : s.applyReset.log = s.log := rfl
@[simp] theorem State.resetWith_cpu (m : Memory) : (State.resetWith m).cpu = Cpu.reset := rfl
@[simp] theorem State.resetWith_mem (m : Memory) : (State.resetWith m).mem = m := rfl
@[simp] theorem State.resetWith_inputs (m : Memory) : (State.resetWith m).inputs = [] := rfl
@[simp] theorem State.resetWith_rsp (m : Memory) : (State.resetWith m).rsp = none := rfl
@[simp] theorem State.resetWith_log (m : Memory) : (State.resetWith m).log = [] := rfl

/-! ### Waiting events -/

@[simp] theorem State.withRequest_cpu (s : State) (w : Word) : (s.withRequest w).cpu = s.cpu := rfl
@[simp] theorem State.withRequest_mem (s : State) (w : Word) : (s.withRequest w).mem = s.mem := rfl
@[simp] theorem State.withRequest_inputs (s : State) (w : Word) :
    (s.withRequest w).inputs = .request w :: s.inputs := rfl
@[simp] theorem State.withRequest_rsp (s : State) (w : Word) : (s.withRequest w).rsp = s.rsp := rfl
@[simp] theorem State.withRequest_log (s : State) (w : Word) : (s.withRequest w).log = s.log := rfl

end Sys2Proof.Machine
end

