-- ==== Sys2Proof/Laws/Ops.lean ====
section
/-!
SUPPORT. What each shared operation can do, said once: one spec lemma per meaning, and one inversion lemma for the
protocol of a request, for the controller's action and for the step.
-/

namespace Sys2Proof.Machine

/-- Every meaning writes one register and answers a next state. -/
theorem exec_writes_one_register (i : Instr) (s : State) : ∃ rd v, exec i s = .next (s.writeReg rd v) := by
  cases i <;> exact ⟨_, _, rfl⟩

/-- What one request can do: report its word, or run the selected action after the pre-increment and answer OK. -/
theorem serveRequest_next {select : Selection} {w : Word} {s t : State} (h : serveRequest select w s = .next t) :
    (select w = none ∧ t = s.advancePc.respond (.unrecognized w)) ∨
    ∃ action u, select w = some action ∧ action s.advancePc = .next u ∧ t = u.respond .ok := by
  unfold serveRequest at h
  split at h
  · exact .inl ⟨‹_›, by simpa using h.symm⟩
  · split at h
    · exact .inr ⟨_, _, ‹_›, ‹_›, by simpa using h.symm⟩
    · cases h
    · cases h

@[simp] theorem Computation.perform_done (cpu : Cpu) (mem : Option Memory) (m : Memory) :
    (Computation.done cpu mem).perform m = .ok (cpu, mem) := rfl
@[simp] theorem Computation.perform_length (next : Nat → Computation) (m : Memory) :
    (Computation.length next).perform m = (next m.length).perform m := rfl
theorem Computation.perform_read_some {m : Memory} {a : Nat} {b : Byte} (h : m.read a = some b)
    (next : Byte → Computation) : (Computation.read a next).perform m = (next b).perform m := by
  simp [Computation.perform, h]
theorem Computation.perform_read_none {m : Memory} {a : Nat} (h : m.read a = none) (next : Byte → Computation) :
    (Computation.read a next).perform m = .error (.memoryBeyondStore a) := by
  simp [Computation.perform, h]

/-- What a computation can do: every address it reads has a value and it gives its result, or the first one that has
none refuses it. -/
theorem Computation.perform_cases (c : Computation) (m : Memory) :
    (∃ r, c.perform m = .ok r ∧ ∀ a ∈ c.reads m, m.read a ≠ none) ∨
    ∃ a, c.perform m = .error (.memoryBeyondStore a) ∧ a ∈ c.reads m ∧ m.read a = none ∧
      ∀ x ∈ c.reads m, m.read x = none → x = a := by
  induction c with
  | done cpu mem => exact .inl ⟨_, rfl, by simp [Computation.reads]⟩
  | length next ih => simpa [Computation.reads] using ih m.length
  | read a next ih =>
    cases h : m.read a with
    | none => exact .inr ⟨a, Computation.perform_read_none h next, by simp [Computation.reads, h]⟩
    | some b =>
      have hr : (Computation.read a next).reads m = a :: (next b).reads m := by simp [Computation.reads, h]
      rw [Computation.perform_read_some h, hr]
      obtain ⟨r, hp, hs⟩ | ⟨x, hp, hx, hn, hu⟩ := ih b
      · exact .inl ⟨r, hp, by simpa [h] using hs⟩
      · exact .inr ⟨x, hp, List.mem_cons_of_mem _ hx, hn, by simpa [h] using hu⟩

/-- Reading the first `n` bytes of a canonical store that has them goes on with those bytes. -/
theorem Computation.perform_readFirst {m : Memory} (hm : m.wf = true) {n : Nat} (hn : n ≤ m.length)
    (next : List Byte → Computation) :
    (Computation.readFirst n next).perform m = (next ((m.map Prod.snd).take n)).perform m ∧
    (Computation.readFirst n next).reads m = List.range n ++ (next ((m.map Prod.snd).take n)).reads m := by
  induction n generalizing next with
  | zero => simp [Computation.readFirst]
  | succ n ih =>
    have hl : n < (m.map Prod.snd).length := by simpa using hn
    have hr : m.read n = some ((m.map Prod.snd)[n]) := by
      conv => lhs; rw [← Memory.ofBytes_bytes hm]
      rw [Memory.read_ofBytes, List.getElem?_eq_getElem hl]
    obtain ⟨hp, hs⟩ := ih (by omega) (fun bs => .read n (fun b => next (bs ++ [b])))
    rw [Computation.readFirst, hp, hs, Computation.perform_read_some hr, Computation.reads, hr,
      List.take_succ_eq_append_getElem hl, List.range_succ]
    simp

/-- What the controller does with an action: it keeps the CPU state of one that read within the store and wrote neither
pc nor memory. -/
theorem runAction_next {action : Action} {w : Word} {s t : State} (h : runAction action w s = .next t) :
    ∃ cpu, (action s.cpu w).perform s.mem = .ok (cpu, none) ∧ cpu.pc = s.cpu.pc ∧ t = { s with cpu := cpu } := by
  unfold runAction at h
  split at h
  · cases h
  · cases h
  · split at h
    · exact ⟨_, ‹_›, ‹_›, by simpa using h.symm⟩
    · cases h

theorem runAction_error {action : Action} {w : Word} {s : State} {r : Refusal}
    (h : (action s.cpu w).perform s.mem = .error r) : runAction action w s = .refused r := by
  simp [runAction, h]

theorem runAction_memory {action : Action} {w : Word} {s : State} {cpu : Cpu} {m : Memory}
    (h : (action s.cpu w).perform s.mem = .ok (cpu, some m)) : runAction action w s = .refused .actionWritesPcOrMemory := by
  simp [runAction, h]

theorem runAction_ok {action : Action} {w : Word} {s : State} {cpu : Cpu}
    (h : (action s.cpu w).perform s.mem = .ok (cpu, none)) : runAction action w s =
      if cpu.pc = s.cpu.pc then .next { s with cpu := cpu } else .refused .actionWritesPcOrMemory := by
  simp [runAction, h]

/-- What one step can do, by the event it serves. -/
theorem serveNext_next {select : Selection} {s t : State} (h : serveNext select s = .next t) :
    (s.inputs = [] ∧ t = s) ∨
    (∃ w rest, s.inputs = .request w :: rest ∧ serveRequest select w { s with inputs := rest } = .next t) ∨
    (∃ rest, s.inputs = .reset :: rest ∧ t = State.applyReset { s with inputs := rest }) ∨
    (∃ b rest, s.inputs = .memGrow b :: rest ∧ t = { s with inputs := rest, mem := s.mem.grow b }) ∨
    (∃ a b rest m, s.inputs = .memStore a b :: rest ∧ s.mem.write a b = .ok m ∧
      t = { s with inputs := rest, mem := m }) := by
  unfold serveNext at h
  split at h
  · exact .inl ⟨‹_›, by simpa using h.symm⟩
  · exact .inr (.inl ⟨_, _, ‹_›, h⟩)
  · exact .inr (.inr (.inl ⟨_, ‹_›, by simpa using h.symm⟩))
  · exact .inr (.inr (.inr (.inl ⟨_, _, ‹_›, by simpa using h.symm⟩)))
  · split at h
    · exact .inr (.inr (.inr (.inr ⟨_, _, _, _, ‹_›, ‹_›, by simpa using h.symm⟩)))
    · cases h

/-- A step whose next event is a request is that request. -/
theorem serveNext_request {select : Selection} {s : State} {w : Word} {rest : List Input}
    (h : s.inputs = .request w :: rest) : serveNext select s = serveRequest select w { s with inputs := rest } := by
  simp [serveNext, h]

theorem selectDecoded_ok {w : Word} {i : Instr} (h : decode w = .ok i) : selectDecoded w = some (exec i) := by
  simp [selectDecoded, h]

theorem selectDecoded_error {w : Word} {e : DecodeError} (h : decode w = .error e) : selectDecoded w = none := by
  simp [selectDecoded, h]

theorem selectFirstMatch_some {T : Table} {w : Word} {e : Entry} (h : T.firstMatch w = some e) :
    selectFirstMatch T w = some (runAction e.action w) := by
  simp [selectFirstMatch, h]

theorem selectFirstMatch_none {T : Table} {w : Word} (h : T.firstMatch w = none) : selectFirstMatch T w = none := by
  simp [selectFirstMatch, h]

/-- A request whose word an entry matches answers what that entry's action answers, with the response OK. -/
theorem decodeAndExecuteWith_of_match {T : Table} {w : Word} {s : State} {e : Entry} (h : T.firstMatch w = some e) :
    decodeAndExecuteWith T w s =
      match runAction e.action w s.advancePc with
      | .next t => .next (t.respond .ok)
      | .fault f => .fault f
      | .refused r => .refused r := by
  cases hr : runAction e.action w s.advancePc <;>
    simp [decodeAndExecuteWith, serveRequest, selectFirstMatch_some h, hr]

/-- A run whose first step answers a next state goes on from it. -/
theorem core_run_succ {k : Nat} {s t : State} (h : step s = .next t) :
    Sys2Proof.core.run (k + 1) s = Sys2Proof.core.run k t := by
  simp only [Host.Core.run]
  rw [show Sys2Proof.core.step s = step s from rfl, h]

end Sys2Proof.Machine
end

