-- ==== Sys2Proof/Laws/PerInstr.lean ====
section
/-!
SUPPORT. Statements for all instructions, one lemma per constructor.
EncodesOwnEntry: the encoding of an instruction hits its own entry of the default table and no other
(spec/30_encoding.md rules R81, R82).
-/

namespace Sys2Proof.Laws

/-- The hits of the three entries of the default table, in table order. -/
def entryHits (w : Word) : List Bool := [hitsAuipc w, hitsAdd w, hitsAddi w]

/-- Which entry is the instruction's own. -/
def ownEntry : Instr → List Bool
  | .auipc _ _ => [true, false, false]
  | .add _ _ _ => [false, true, false]
  | .addi _ _ _ => [false, false, true]

def EncodesOwnEntry.Statement (i : Instr) : Prop := i.wellFormed = true → entryHits (encode i) = ownEntry i

/-- The low seven bits of the AND-compare, enough to tell the three opcodes apart. -/
theorem hitsEntry_false_of_opcode {w mask val : Word} (hm : mask &&& 0x7F#32 = 0x7F#32)
    (h : w &&& 0x7F#32 ≠ val &&& 0x7F#32) : hitsEntry w mask val = false := by
  simp only [hitsEntry, beq_eq_false_iff_ne, ne_eq]
  intro e
  apply h
  rw [← e, BitVec.and_assoc, hm]

theorem EncodesOwnEntry.auipc (rd : RegIdx) (immU : Word) : EncodesOwnEntry.Statement (.auipc rd immU) := by
  intro _
  have op : encode (.auipc rd immU) &&& 0x7F#32 = 0x17#32 := by
    ext k hk
    simp only [encode, placeReg]
    interval_cases k <;> simp
  have h1 : hitsAuipc (encode (.auipc rd immU)) = true := by simp [hitsAuipc, hitsEntry, op]
  have h2 : hitsAdd (encode (.auipc rd immU)) = false :=
    hitsEntry_false_of_opcode (by decide) (by rw [op]; decide)
  have h3 : hitsAddi (encode (.auipc rd immU)) = false :=
    hitsEntry_false_of_opcode (by decide) (by rw [op]; decide)
  simp [entryHits, ownEntry, h1, h2, h3]

theorem EncodesOwnEntry.add (rd src1 src2 : RegIdx) : EncodesOwnEntry.Statement (.add rd src1 src2) := by
  intro _
  have own : encode (.add rd src1 src2) &&& 0xFE00707F#32 = 0x33#32 := by
    ext k hk
    simp only [encode, placeReg]
    interval_cases k <;> simp
  have op : encode (.add rd src1 src2) &&& 0x7F#32 = 0x33#32 := by
    have := congrArg (· &&& 0x7F#32) own
    simpa [BitVec.and_assoc] using this
  have h1 : hitsAuipc (encode (.add rd src1 src2)) = false :=
    hitsEntry_false_of_opcode (by decide) (by rw [op]; decide)
  have h2 : hitsAdd (encode (.add rd src1 src2)) = true := by simp [hitsAdd, hitsEntry, own]
  have h3 : hitsAddi (encode (.add rd src1 src2)) = false :=
    hitsEntry_false_of_opcode (by decide) (by rw [op]; decide)
  simp [entryHits, ownEntry, h1, h2, h3]

theorem EncodesOwnEntry.addi (rd src1 : RegIdx) (immI : Word) : EncodesOwnEntry.Statement (.addi rd src1 immI) := by
  intro _
  have own : encode (.addi rd src1 immI) &&& 0x707F#32 = 0x13#32 := by
    ext k hk
    simp only [encode, placeReg]
    interval_cases k <;> simp
  have op : encode (.addi rd src1 immI) &&& 0x7F#32 = 0x13#32 := by
    have := congrArg (· &&& 0x7F#32) own
    simpa [BitVec.and_assoc] using this
  have h1 : hitsAuipc (encode (.addi rd src1 immI)) = false :=
    hitsEntry_false_of_opcode (by decide) (by rw [op]; decide)
  have h2 : hitsAdd (encode (.addi rd src1 immI)) = false :=
    hitsEntry_false_of_opcode (by decide) (by rw [op]; decide)
  have h3 : hitsAddi (encode (.addi rd src1 immI)) = true := by simp [hitsAddi, hitsEntry, own]
  simp [entryHits, ownEntry, h1, h2, h3]

end Sys2Proof.Laws
end

