-- ==== Sys2Proof/Tests/Slice0.lean ====
section
/-!
SUPPORT. The model's own tests. Expected results are the spec's worked examples and derived vectors
(spec/95_test_vectors.md, cited by their numbers), or worked out by hand from the rule cited. The second half gives,
for every statement with hypotheses, concrete values that meet them together.
-/

namespace Sys2Proof.Tests
open Sys2Proof Sys2Proof.Machine

/-! ### Helpers -/

/-- A state with the given pc, registers and waiting events; every other register is zero. -/
def st (pc : Word) (regs : List (RegIdx × Word)) (inputs : List Input) : State :=
  { State.reset with cpu := regs.foldl (fun c r => c.writeReg r.1 r.2) { Cpu.reset with pc := pc }, inputs := inputs }

/-- What a step answers, if a next state, seen through a view. -/
def seen {α : Type} (view : State → α) (o : Host.Outcome State Fault Refusal) : Option α :=
  match o with
  | .next t => some (view t)
  | .fault _ => none
  | .refused _ => none

theorem next_of_seen {o : Host.Outcome State Fault Refusal} (h : (seen id o).isSome = true) : ∃ t, o = .next t := by
  cases o with
  | next t => exact ⟨t, rfl⟩
  | fault r => cases h
  | refused r => cases h

/-- The refusal of a step, if it is one. -/
def refusal (o : Host.Outcome State Fault Refusal) : Option Refusal :=
  match o with
  | .next _ => none
  | .fault _ => none
  | .refused r => some r

/-- A register, the pc and the response. -/
def regPcRsp (i : RegIdx) (t : State) : Word × Word × Option Response := (t.readReg i, t.cpu.pc, t.rsp)

/-! ### Well-formedness: an ill-formed term for each check is refused -/

theorem test_wf_refuses_immU_low_bits : (Instr.auipc 1#5 0x00001001#32).wellFormed = false := by decide
theorem test_wf_refuses_immI_4096 : (Instr.addi 1#5 0#5 4096#32).wellFormed = false := by decide
theorem test_wf_accepts_boundary : (Instr.addi 1#5 0#5 4095#32).wellFormed = true ∧
    (Instr.auipc 31#5 0xFFFFF000#32).wellFormed = true ∧ (Instr.add 31#5 31#5 31#5).wellFormed = true := by decide
/-- 31 characters, 33 characters, a bad character (M4, M5, M6). -/
theorem test_pattern_wf_refuses : patternWellFormed "0000000001000000000000001001001".toList = false ∧
    patternWellFormed "000000000100000000000000100100110".toList = false ∧
    patternWellFormed "0000000001000000000000001001001x".toList = false := by decide
theorem test_asm_wf_refuses : (AsmLine.add 32 0 0).wellFormed = false ∧ (AsmLine.addi 0 0 4096).wellFormed = false ∧
    (AsmLine.auipc 0 0x100000).wellFormed = false := by decide

/-! ### Decoding: words written out bit by bit from the encodings of rules R62 to R64 and R81 -/

/-- imm[31:12] = 0x12345, rd = 3, opcode 0010111 (P-A7). -/
theorem test_decode_auipc : decodeTableWord 32 0b00010010001101000101000110010111 =
    some (.auipc 3#5 0x12345000#32) := by decide
/-- funct7 0, src2 = 29, src1 = 30, funct3 0, rd = 31, opcode 0110011 (P-D7). -/
theorem test_decode_add : decodeTableWord 32 0b00000001110111110000111110110011 =
    some (.add 31#5 30#5 29#5) := by decide
/-- imm[11:0] = 0xFFF, src1 = 1, funct3 0, rd = 1, opcode 0010011: the immediate is 4095 (P-I3). -/
theorem test_decode_addi : decodeTableWord 32 0b11111111111100001000000010010011 =
    some (.addi 1#5 1#5 0x00000FFF#32) := by decide
/-- The unrecognized words D8 to D17. -/
theorem test_decode_unrecognized : [0x0000006F, 0x40108233, 0x02108233, 0xFE108233, 0x00109233, 0x00402093, 0x0000707F,
    0xFFFFFFFF, 0x00000000, 0xFFFFF0B7].map (decodeTableWord 32) = List.replicate 10 none := by decide
theorem test_encode_vectors : encode (.auipc 1#5 0x00001000#32) = 0x00001097#32 ∧
    encode (.add 4#5 1#5 1#5) = 0x00108233#32 ∧ encode (.addi 2#5 2#5 0xFF4#32) = 0xFF410113#32 := by decide

/-! ### The bitfield extractor (X1 to X14), the accessors (A1), the matcher (M1 to M14) -/

theorem test_bits_vectors : bits 0xDEADBEEF#32 0 0 = .ok 0x1 ∧ bits 0xDEADBEEF#32 0 31 = .ok 0xDEADBEEF ∧
    bits 0xDEADBEEF#32 31 31 = .ok 0x1 ∧ bits 0xDEADBEEF#32 4 11 = .ok 0xEE ∧ bits 0xDEADBEEF#32 20 31 = .ok 0xDEA ∧
    bits 0xDEADBEEF#32 0 30 = .ok 0x5EADBEEF := ⟨rfl, rfl, rfl, rfl, rfl, rfl⟩
theorem test_bits_refused : bits 0xDEADBEEF#32 5 4 = .error (.badBitRange 5 4) ∧
    bits 0xDEADBEEF#32 0 32 = .error (.badBitRange 0 32) := ⟨rfl, rfl⟩
theorem test_accessors_A1 : rdOf 0xDEADBEEF#32 = 29#5 ∧ src1Of 0xDEADBEEF#32 = 27#5 ∧ src2Of 0xDEADBEEF#32 = 10#5 ∧
    immIOf 0xDEADBEEF#32 = 0x00000DEA#32 ∧ immUOf 0xDEADBEEF#32 = 0xDEADB000#32 := by decide
theorem test_matcher_M1_M2_M12 : wordMatches 0x00400093#32 "00000000010000000000000010010011".toList = true ∧
    wordMatches 0x00400093#32 "000000000100 00000 000 00001 0010011".toList = true ∧
    wordMatches 0x00400093#32 patternAddi = true := by decide
theorem test_matcher_M6_M8_M13 : wordMatches 0x00400093#32 "0000000001000000000000001001001x".toList = false ∧
    wordMatches 0x00400093#32 ('1' :: List.replicate 31 '?') = false ∧
    wordMatches 0x00400093#32 patternAdd = false := by decide
theorem test_matcher_M9_M10_M11 : wordMatches 0x80000000#32 ('1' :: List.replicate 31 '?') = true ∧
    wordMatches 0x00000001#32 (List.replicate 31 '?' ++ ['1']) = true ∧
    wordMatches 0x00000001#32 ('1' :: List.replicate 31 '?') = false := by decide
theorem test_default_masks : [patternAuipc, patternAdd, patternAddi].map (fun p => (patternMask p, patternMatch p)) =
    [(0x0000007F#32, 0x00000017#32), (0xFE00707F#32, 0x00000033#32), (0x0000707F#32, 0x00000013#32)] := by decide

/-! ### The three instructions, one request each -/

/-- P-A4: the pc advances to 0xFFFFFFFC and the sum wraps. -/
theorem test_auipc_wraps : seen (regPcRsp 2#5) (step (st 0xFFFFFFF8#32 [] [.request 0xFFFFF117#32])) =
    some (0xFFFFEFFC#32, 0xFFFFFFFC#32, some .ok) := by decide
/-- P-A5: the pc wraps first, and register 0 is written. -/
theorem test_auipc_x0_after_pc_wrap : seen (regPcRsp 0#5) (step (st 0xFFFFFFFC#32 [(0#5, 9#32)] [.request 0x00000017#32])) =
    some (0#32, 0#32, some .ok) := by decide
/-- P-D5: rd is a source; its old value is read. -/
theorem test_add_reads_old_rd : seen (regPcRsp 5#5) (step (st 0#32 [(5#5, 3#32), (6#5, 10#32)] [.request 0x005302B3#32])) =
    some (13#32, 4#32, some .ok) := by decide
/-- P-D6: register 0 is writable. -/
theorem test_add_writes_x0 : seen (regPcRsp 0#5) (step (st 0#32 [(1#5, 1#32), (2#5, 2#32)] [.request 0x00208033#32])) =
    some (3#32, 4#32, some .ok) := by decide
/-- P-I4: the immediate 0xFFF is 4095, and the sum wraps. -/
theorem test_addi_zero_extends : seen (regPcRsp 1#5) (step (st 0#32 [(1#5, 0xFFFFF001#32)] [.request 0xFFF08093#32])) =
    some (0#32, 4#32, some .ok) := by decide
/-- E1, as the first request after reset, placed as the host places it. -/
theorem test_addi_first_after_reset : seen (regPcRsp 1#5) (step (State.reset.withFetchWord 32 0x00400093)) =
    some (4#32, 4#32, some .ok) := by decide

/-! ### UnrecognizedInstruction, the input ports, the accessors -/

/-- E3 and T7: only the pc changes, and it wraps. -/
theorem test_unrecognized_keeps_registers : seen (fun t => (t.cpu, t.rspWord, t.rspStatus))
    (step (st 0xFFFFFFFC#32 [(7#5, 5#32)] [.request 0x0000006F#32])) =
    some ((st 0#32 [(7#5, 5#32)] []).cpu, some 0x0000006F#32, some 1#1) := by decide
/-- R-4: reset between requests. -/
theorem test_reset_event : seen (fun t => (t.cpu, t.rsp, t.inputs)) (step (st 8#32 [(1#5, 4#32), (4#5, 8#32)]
    [.reset, .request 0x00000013#32])) = some (Cpu.reset, none, [.request 0x00000013#32]) := by decide
/-- R-3 and rule R100: index 32 is refused; `rsp_word` has no value before a response. -/
theorem test_accessors : State.reset.regOut 31 = .ok 0#32 ∧
    State.reset.regOut 32 = .error (.registerIndexOutOfRange 32) ∧ State.reset.rspStatus = none := ⟨rfl, rfl, rfl⟩
/-- U1 and U3: the rendering. -/
theorem test_hex : renderHex 0x0000006F#32 = "0000006f".toList ∧ renderHex 0xFFFFFFFF#32 = "ffffffff".toList := by decide

/-! ### The table (T1, T2, T3, T5) -/

/-- `A`: `x[1] <- 1`. -/
def actionA : Action := fun cpu _ => .done (cpu.writeReg 1#5 1#32) none
/-- `B`: `x[1] <- 2`. -/
def actionB : Action := fun cpu _ => .done (cpu.writeReg 1#5 2#32) none
/-- An action outside what the source specifies (rule R106): it writes the pc. -/
def actionJump : Action := fun cpu _ => .done (cpu.writePc 0x100#32) none
/-- An action that reads the byte at address 2 (rule R41). -/
def actionLoad : Action := fun cpu _ => .read 2 (fun b => .done (cpu.writeReg 1#5 (b.setWidth 32)) none)
/-- An action in rule R106's own form that returns another store. -/
def actionGrow : Action := Action.ofTotal (fun cpu m _ => (cpu, m.grow 0x44#8))
def allWild : Pattern := List.replicate 32 '?'
def exactE1 : Pattern := "00000000010000000000000010010011".toList
def tableAB : Table := ⟨[⟨allWild, actionA⟩, ⟨exactE1, actionB⟩], by decide⟩
def tableBA : Table := ⟨[⟨exactE1, actionB⟩, ⟨allWild, actionA⟩], by decide⟩
def tableC : Table := ⟨[⟨"00000000000000000000000001101111".toList, fun cpu _ => .done (cpu.writeReg 2#5 7#32) none⟩],
  by decide⟩
def tableJump : Table := ⟨[⟨allWild, actionJump⟩], by decide⟩
def tableLoad : Table := ⟨[⟨allWild, actionLoad⟩], by decide⟩
def tableGrow : Table := ⟨[⟨allWild, actionGrow⟩], by decide⟩
def emptyTable : Table := ⟨[], by decide⟩

theorem test_first_match_T1_T2 : seen (regPcRsp 1#5) (decodeAndExecuteWith tableAB 0x00400093#32 State.reset) =
      some (1#32, 4#32, some .ok) ∧
    seen (regPcRsp 1#5) (decodeAndExecuteWith tableBA 0x00400093#32 State.reset) = some (2#32, 4#32, some .ok) := by decide
theorem test_appended_entry_T3 : seen (regPcRsp 2#5) (decodeAndExecuteWith (defaultTable.append tableC) 0x0000006F#32
    State.reset) = some (7#32, 4#32, some .ok) := by decide
theorem test_empty_table_T5 : seen (regPcRsp 1#5) (decodeAndExecuteWith emptyTable 0x00400093#32 State.reset) =
    some (0#32, 4#32, some (.unrecognized 0x00400093#32)) := by decide
theorem test_jump_refused : refusal (decodeAndExecuteWith tableJump 0x00400093#32 State.reset) =
    some .actionWritesPcOrMemory := by decide

/-! ### The memory store and the assembler -/

/-- A store of three bytes. -/
def mem3 : Memory := Memory.ofBytes [0x11#8, 0x22#8, 0x33#8]
/-- I15: the byte at address 2 is the last of three, and beyond a store of two. -/
theorem test_action_reads_within_or_is_refused : seen (regPcRsp 1#5) (decodeAndExecuteWith tableLoad 0#32
      (State.resetWith mem3)) = some (0x33#32, 4#32, some .ok) ∧
    refusal (decodeAndExecuteWith tableLoad 0#32 (State.resetWith (mem3.take 2))) = some (.memoryBeyondStore 2) := by
  decide
/-- I16: an action that returns another store. -/
theorem test_memory_write_refused : refusal (decodeAndExecuteWith tableGrow 0#32 (State.resetWith mem3)) =
    some .actionWritesPcOrMemory := by decide
def p8 (order : Config.ByteOrder) : Config.MemParams := { addrBits := 8, byteOrder := order, init := [0x11#8, 0x22#8] }

theorem test_memory_edges : mem3.read 2 = some 0x33#8 ∧ mem3.read 3 = none := by decide
theorem test_byte_orders : memRead (p8 .little) mem3 0 2 = .ok 0x2211 ∧ memRead (p8 .big) mem3 0 2 = .ok 0x1122 ∧
    memRead (p8 .big) mem3 2 2 = .error (.memoryBeyondStore 3) := ⟨rfl, rfl, rfl⟩
/-- E1, E2, P2: the text of the source's scenarios; a negative or too large immediate has no encoding. -/
theorem test_assemble : assemble "addi x1, x0, 4".toList = some 0x00400093#32 ∧
    assemble "add x4, x1, x1".toList = some 0x00108233#32 ∧
    assemble "auipc x1, 0xFFFFF".toList = some 0xFFFFF097#32 ∧ assemble "addi x1, x0, 4096".toList = none ∧
    assemble "addi x1, x0, -1".toList = none := by decide

/-! ### Values that meet the hypotheses of the statements -/

def sAdd : State := st 0#32 [(1#5, 4#32)] [.request 0x00108233#32, .reset]
def sAuipc : State := st 0xFFFFFFF8#32 [] [.request 0xFFFFF117#32]
def sAddi : State := st 0#32 [] [.request 0xFFF08093#32]
def sBad : State := st 0#32 [] [.request 0x0000006F#32]
def sReset : State := st 8#32 [(1#5, 4#32)] [.reset]

theorem witness_ResetEventRestoresCpuOnly : sReset.inputs = Input.reset :: [] ∧ sReset.cpu ≠ Cpu.reset := by decide
theorem witness_IdleStepChangesNothing : State.reset.inputs = [] := rfl
theorem witness_HostMemoryAccess_grow : mem3.wf = true ∧
    { State.reset with mem := mem3, inputs := [.memGrow 0x44#8] }.inputs = Input.memGrow 0x44#8 :: [] := by decide
theorem witness_HostMemoryAccess_lastByte : mem3.wf = true ∧ 2 < mem3.length ∧
    { State.reset with mem := mem3, inputs := [.memStore 2 0x44#8] }.inputs = Input.memStore 2 0x44#8 :: [] := by decide
theorem witness_HostMemoryAccess_beyond : mem3.wf = true ∧ mem3.length ≤ 3 ∧
    { State.reset with mem := mem3, inputs := [.memStore 3 0x44#8] }.inputs = Input.memStore 3 0x44#8 :: [] := by decide
theorem witness_OnlyHostStoreBeyondLengthStops :
    refusal (step { State.reset with mem := mem3, inputs := [.memStore 3 0x44#8] }) =
    some (.memoryBeyondStore 3) := by decide
theorem witness_StepRunsDecodedInstruction : sAdd.inputs = Input.request 0x00108233#32 :: [.reset] ∧
    decode 0x00108233#32 = .ok (.add 4#5 1#5 1#5) := ⟨rfl, by decide⟩
theorem witness_AuipcWordRequest : sAuipc.inputs = Input.request 0xFFFFF117#32 :: [] ∧
    bits 0xFFFFF117#32 0 6 = .ok 0x17 ∧ bits 0xFFFFF117#32 7 11 = .ok (2#5).toNat ∧
    bits 0xFFFFF117#32 12 31 = .ok 0xFFFFF := ⟨rfl, rfl, rfl, rfl⟩
theorem witness_AddWordRequest : sAdd.inputs = Input.request 0x00108233#32 :: [.reset] ∧
    bits 0x00108233#32 0 6 = .ok 0x33 ∧ bits 0x00108233#32 12 14 = .ok 0 ∧ bits 0x00108233#32 25 31 = .ok 0 ∧
    bits 0x00108233#32 7 11 = .ok (4#5).toNat ∧ bits 0x00108233#32 15 19 = .ok (1#5).toNat ∧
    bits 0x00108233#32 20 24 = .ok (1#5).toNat := ⟨rfl, rfl, rfl, rfl, rfl, rfl, rfl⟩
theorem witness_AddiWordRequest : sAddi.inputs = Input.request 0xFFF08093#32 :: [] ∧
    bits 0xFFF08093#32 0 6 = .ok 0x13 ∧ bits 0xFFF08093#32 12 14 = .ok 0 ∧
    bits 0xFFF08093#32 7 11 = .ok (1#5).toNat ∧ bits 0xFFF08093#32 15 19 = .ok (1#5).toNat ∧
    bits 0xFFF08093#32 20 31 = .ok 0xFFF := ⟨rfl, rfl, rfl, rfl, rfl, rfl⟩
/-- The other clause, funct7 and funct3 one bit off (D9, D12). -/
theorem witness_AddWordRequest_unrecognized : bits 0x40108233#32 0 6 = .ok 0x33 ∧ bits 0x40108233#32 25 31 = .ok 0x20 ∧
    bits 0x00109233#32 0 6 = .ok 0x33 ∧ bits 0x00109233#32 12 14 = .ok 1 := ⟨rfl, rfl, rfl, rfl⟩
theorem witness_AddiWordRequest_unrecognized : bits 0x00402093#32 0 6 = .ok 0x13 ∧ bits 0x00402093#32 12 14 = .ok 2 :=
  ⟨rfl, rfl⟩
theorem witness_UnrecognizedWordRequest : sBad.inputs = Input.request 0x0000006F#32 :: [] ∧
    0x0000006F#32 &&& 0x0000007F#32 ≠ 0x00000017#32 ∧ 0x0000006F#32 &&& 0xFE00707F#32 ≠ 0x00000033#32 ∧
    0x0000006F#32 &&& 0x0000707F#32 ≠ 0x00000013#32 := by decide
/-- Also of EveryRequestAdvancesPc and RequestsIgnoreMemory: both outcomes occur. -/
theorem witness_EveryRequestCompletes : sAdd.inputs = Input.request 0x00108233#32 :: [.reset] ∧
    sBad.inputs = Input.request 0x0000006F#32 :: [] := ⟨rfl, rfl⟩
theorem witness_EveryRequestAdvancesPc_anyTable : ∃ t, stepWith tableAB sBad = .next t := next_of_seen (by decide)
theorem witness_EveryRequestAdvancesPc_action : tableAB.firstMatch 0x0000006F#32 = some ⟨allWild, actionA⟩ := rfl
theorem witness_PcRelativeValues : immUWellFormed 0#32 = true ∧ immUWellFormed 0xFFFFF000#32 = true := by decide
theorem witness_OnlyRequestsAndResetChangeCpu : (∃ t, step sAdd = .next t ∧ t.readReg 4#5 ≠ sAdd.readReg 4#5 ∧
    t.cpu.pc ≠ sAdd.cpu.pc) ∧ ∃ t, step sReset = .next t ∧ t.readReg 1#5 ≠ sReset.readReg 1#5 :=
  ⟨⟨_, rfl, by decide, by decide⟩, ⟨_, rfl, by decide⟩⟩
theorem witness_PastResponsesDoNotMatter : ∃ t, step sBad = .next t ∧ t.rsp ≠ sBad.rsp := ⟨_, rfl, by decide⟩
theorem witness_StepKeepsInvariant : sAdd.Inv ∧ (∃ t, step sAdd = .next t) ∧ ∃ t, stepWith tableAB sAdd = .next t :=
  ⟨⟨rfl, rfl, .inl rfl⟩, next_of_seen (by decide), next_of_seen (by decide)⟩
/-- Also of RunRecordsEveryResponse: from reset, one recognized and one unrecognized word. -/
theorem witness_PcCountsRequests : let s := st 0#32 [] [.request 0x00108233#32, .request 0x0000006F#32, .reset]
    s.inputs = [0x00108233#32, 0x0000006F#32].map Input.request ++ [.reset] ∧ s.cpu = Cpu.reset := by decide
theorem witness_RunRecordsEveryResponse : sAdd.noUnrecognized ∧
    sAdd.inputs = [0x00108233#32].map Input.request ++ [.reset] := by
  refine ⟨?_, rfl⟩
  intro r h
  cases h
theorem witness_BitsFormsTheField : (0 ≤ 31 ∧ 31 ≤ 31) ∧ (31 ≤ 31 ∧ 31 ≤ 31) ∧ (0 ≤ 0 ∧ 0 ≤ 31) := by decide
theorem witness_BitsRefusesBadRange : (1 > 0 ∨ 0 > 31) ∧ (0 > 32 ∨ 32 > 31) := by decide
theorem witness_MalformedPattern : patternWellFormed [] = false ∧
    patternWellFormed ('x' :: List.replicate 31 '?') = false := by decide
theorem witness_PatternIsMaskAndMatch : patternWellFormed patternAdd = true ∧ patternWellFormed allWild = true := by decide
theorem witness_WideningMatches : wordMatches 0x00400013#32 ((renderBinary 0x00400093#32).zipIdx.map
    (fun c => if c.2 == 24 then '?' else c.1)) = true := by decide
theorem witness_WhitespaceIsCosmetic : [' ', '\t', '\n', '\r'].all isPatternSpace = true := by decide
theorem witness_DecodeOfEncode : (Instr.addi 0#5 31#5 4095#32).wellFormed = true ∧
    (Instr.auipc 31#5 0xFFFFF000#32).wellFormed = true ∧ (Instr.add 0#5 31#5 0#5).wellFormed = true := by decide
theorem witness_EncodeOfDecode : decode 0xFFF00093#32 = .ok (.addi 1#5 0#5 0xFFF#32) := by decide
theorem witness_DefaultEntriesDisjoint : (defaultTable.hits 0x00108233#32)[1]? = some true := by decide
theorem witness_FirstMatchWins : ∃ e, tableBA.entries = [⟨exactE1, actionB⟩] ++ e :: [] ∧
    (∀ e' ∈ [(⟨exactE1, actionB⟩ : Entry)], wordMatches 0x0000006F#32 e'.pattern = false) ∧
    wordMatches 0x0000006F#32 e.pattern = true ∧ ∃ t, runAction e.action 0x0000006F#32 State.reset.advancePc = .next t :=
  ⟨⟨allWild, actionA⟩, rfl, by decide, by decide, ⟨_, rfl⟩⟩
theorem witness_FirstMatchWins_refused : wordMatches 0x0000006F#32 allWild = true ∧
    runAction actionJump 0x0000006F#32 State.reset.advancePc = .refused .actionWritesPcOrMemory := ⟨by decide, rfl⟩
theorem witness_UnmatchedRequestReportsWord : sBad.inputs = Input.request 0x0000006F#32 :: [] ∧
    ∀ e ∈ defaultTable.entries, wordMatches 0x0000006F#32 e.pattern = false := by decide
theorem witness_AppendingKeepsMatchedRequests : defaultTable.anyHit 0x00400093#32 = true ∧
    defaultTable.anyHit 0x0000006F#32 = false ∧ tableC.anyHit 0x0000006F#32 = true := by decide
theorem witness_SelIsTheLeastHit : tableAB.sel 0x00400093#32 = some 0 ∧ tableBA.sel 0x0000006F#32 = some 1 ∧
    tableC.sel 0x00400093#32 = none := by decide
theorem witness_BuildRefusesMalformedTable : (∀ e ∈ defaultEntries, patternWellFormed e.pattern = true) ∧
    patternWellFormed ("01".toList) = false := by decide
theorem witness_ActionsWriteRegistersOnly_refused : tableJump.firstMatch 0#32 = some ⟨allWild, actionJump⟩ ∧
    ∃ cpu, (actionJump State.reset.advancePc.cpu 0#32).perform State.reset.mem = .ok (cpu, none) ∧
      cpu.pc ≠ State.reset.advancePc.cpu.pc := ⟨rfl, _, rfl, by decide⟩
theorem witness_ActionsWriteRegistersOnly_memory : tableGrow.firstMatch 0#32 = some ⟨allWild, actionGrow⟩ ∧
    ∃ cpu m, (actionGrow State.reset.advancePc.cpu 0#32).perform State.reset.mem = .ok (cpu, some m) := ⟨rfl, _, _, rfl⟩
theorem witness_ActionsWriteRegistersOnly_next : tableAB.firstMatch 0#32 = some ⟨allWild, actionA⟩ ∧
    ∃ cpu, (actionA State.reset.advancePc.cpu 0#32).perform State.reset.mem = .ok (cpu, none) ∧
      cpu.pc = State.reset.advancePc.cpu.pc := ⟨rfl, _, rfl, rfl⟩
/-- The read of address 2: within a store of three bytes, beyond the empty store. -/
theorem witness_ActionReadBeyondStoreIsRefused : tableLoad.firstMatch 0#32 = some ⟨allWild, actionLoad⟩ ∧
    mem3.wf = true ∧ 2 ∈ (actionLoad Cpu.reset 0#32).reads mem3 ∧ (∀ a ∈ (actionLoad Cpu.reset 0#32).reads mem3, a < mem3.length) ∧
    2 ∈ (actionLoad Cpu.reset 0#32).reads [] ∧ ([] : Memory).length ≤ 2 := by
  refine ⟨rfl, ?_⟩
  decide
theorem witness_TotalFunctionsAreActions : mem3.wf = true ∧ Memory.wf [] = true := by decide
theorem witness_PatternTestsBounded : defaultTable.anyHit 0x0000006F#32 = false ∧
    defaultTable.sel 0x00400093#32 = some 2 := by decide
theorem witness_PhasesFollowResponse : (∃ t, decodeAndExecuteWith defaultTable 0x00400093#32 State.reset = .next t) ∧
    ∃ t, decodeAndExecuteWith defaultTable 0x0000006F#32 State.reset = .next t :=
  ⟨next_of_seen (by decide), next_of_seen (by decide)⟩
theorem witness_BootProvidesTableStateMemory : entriesWellFormed defaultEntries = true ∧
    entriesWellFormed [⟨"01".toList, actionA⟩] = false := by decide
theorem witness_InstancesAreIndependent : ∃ after, stepAmong defaultTable 1 [sBad, sAdd] = some (.next after) := ⟨_, rfl⟩
theorem witness_AccessorsReadPcAndRegisters : 32 ≤ 32 := by decide
theorem witness_MemoryReadsWhatWasWritten : mem3.wf = true ∧ ∃ m', mem3.write 2 0x44#8 = .ok m' := ⟨by decide, _, rfl⟩
theorem witness_MemReadAfterMemWrite : mem3.wf = true ∧
    ∃ m', memWrite (p8 .big) mem3 1 2 0xABCD = .ok m' ∧ m'.read 1 = some 0xAB#8 := ⟨by decide, _, rfl, by decide⟩
theorem witness_AssembledLinesDecode : assemble "addi x31, x30, 0xfff".toList = some 0xFFFF0F93#32 := by decide

end Sys2Proof.Tests
end

section
/-!
The encoding family: the bitfield extractor (rule R66) and the pattern matcher (rule R76).
-/

namespace Sys2Proof

/-! ### The bitfield extractor -/

/-- Inside its precondition `bits` answers (the converse of `bits_ok`). -/
theorem bits_of_range (w : Word) {lo hi : Nat} (hlo : lo ≤ hi) (hhi : hi ≤ 31) :
    bits w lo hi = .ok (w.toNat / 2 ^ lo % 2 ^ (hi - lo + 1)) :=
  if_pos ⟨hlo, hhi⟩

/-- Bit `k` of an `n`-bit field that starts at bit `lo` of a word is the word's bit `lo + k`. -/
theorem testBit_field (w : Word) (lo n k : Nat) :
    (w.toNat / 2 ^ lo % 2 ^ n).testBit k = (decide (k < n) && w.getLsbD (lo + k)) := by
  rw [Nat.testBit_mod_two_pow, Nat.testBit_div_two_pow, Nat.add_comm k lo, BitVec.testBit_toNat]

theorem bits_full_width (w : Word) : bits w 0 31 = .ok w.toNat := by
  rw [bits_of_range w (by decide) (by decide), Nat.pow_zero, Nat.div_one, Nat.mod_eq_of_lt w.isLt]

/-- Settles O25: the value is the model's formula, whose bits are the word's by `testBit_field`. -/
theorem bitsFormsTheField : Obligations.BitsFormsTheField := by
  intro w lo hi hlo hhi
  refine ⟨⟨_, bits_of_range w hlo hhi, rfl, Nat.mod_lt _ (Nat.two_pow_pos _), fun k => ?_⟩, bits_full_width w⟩
  rw [testBit_field, decide_eq_decide.mpr Nat.lt_succ_iff]

/-! ### The pattern matcher -/

theorem charMatches_iff (c : Char) (b : Bool) :
    charMatches c b = true ↔ c = '?' ∨ (c = '0' ∧ b = false) ∨ (c = '1' ∧ b = true) := by
  unfold charMatches
  split_ifs with hq h0 h1
  · simp [hq]
  · simp [h0]
  · simp [h1]
  · simp [hq, h0, h1]

@[simp] theorem length_msbBits (w : Word) : (msbBits w).length = 32 := by
  simp [msbBits]

@[simp] theorem getElem_msbBits (w : Word) (k : Nat) (hk : k < (msbBits w).length) :
    (msbBits w)[k] = w.getLsbD (31 - k) := by
  simp [msbBits]

/-- Two lists of one length pass a pairwise test iff they pass it at every position. -/
theorem all_zipWith_iff {α β : Type} (f : α → β → Bool) {as : List α} {bs : List β} (h : as.length = bs.length) :
    (List.zipWith f as bs).all id = true ↔ ∀ (k : Nat) (hk : k < as.length), f as[k] (bs[k]'(h ▸ hk)) = true := by
  simp [List.all_eq_true, List.forall_mem_iff_getElem, h]

/-- Rule R76, with each position's test left to `charMatches`. -/
theorem wordMatches_iff (w : Word) (p : Pattern) : wordMatches w p = true ↔
    ∃ h : (cleaned p).length = 32, ∀ (k : Nat) (hk : k < 32),
      charMatches (cleaned p)[k] (w.getLsbD (31 - k)) = true := by
  rw [wordMatches, Bool.and_eq_true, beq_iff_eq, ← exists_prop]
  refine exists_congr fun h => ?_
  rw [all_zipWith_iff charMatches (h.trans (length_msbBits w).symm)]
  simp [h]

/-- A character that fits some bit is of the alphabet (rule R77 from the other side). -/
theorem patternChar_of_charMatches {c : Char} {b : Bool} (h : charMatches c b = true) :
    c = '0' ∨ c = '1' ∨ c = '?' := by
  obtain hq | ⟨h0, -⟩ | ⟨h1, -⟩ := (charMatches_iff c b).mp h
  · exact .inr (.inr hq)
  · exact .inl h0
  · exact .inr (.inl h1)

/-- Settles O29: `wordMatches_iff` tests every position, and a character that fits its bit is of the alphabet. -/
theorem matcherTestsEveryPosition : Obligations.MatcherTestsEveryPosition := by
  intro w p
  rw [wordMatches_iff]
  refine exists_congr fun hlen => ⟨fun hfit => ⟨fun c hc => ?_, fun k hk => ?_⟩, fun ⟨_, hfit⟩ k hk => ?_⟩
  · obtain ⟨k, hk, rfl⟩ := List.mem_iff_getElem.mp hc
    exact patternChar_of_charMatches (hfit k (hlen ▸ hk))
  · exact (charMatches_iff _ _).mp (hfit k hk)
  · exact (charMatches_iff _ _).mpr (hfit k hk)

end Sys2Proof
end

section
/-!
The reset family: the CPU state that reset constructs (rule R180).
-/

namespace Sys2Proof
open Machine

/-- Reset's registers do not depend on the host's store. -/
@[simp] theorem Machine.State.readReg_resetWith (m : Memory) (i : RegIdx) : (State.resetWith m).readReg i = 0#32 :=
  Cpu.readReg_reset i

/-- Settles O1: `State.reset` is `State.resetWith` at the empty store, so both halves are the one fact about
`Cpu.reset`. -/
theorem resetZeroesPcAndRegisters : Obligations.ResetZeroesPcAndRegisters :=
  fun m => ⟨Cpu.reset_pc, State.readReg_resetWith m, Cpu.reset_pc, State.readReg_resetWith []⟩

end Sys2Proof
end

section
/-!
The fields of a word: the extractor, the accessors and the AND-compares of the default table, bit by bit.
-/

namespace Sys2Proof

/-! ### The extractor and the accessors (rules R66 to R72) -/

theorem bits_of_bad_range (w : Word) {lo hi : Nat} (h : ¬(lo ≤ hi ∧ hi ≤ 31)) :
    bits w lo hi = .error (.badBitRange lo hi) :=
  if_neg h

/-- Settles O26. -/
theorem bitsRefusesBadRange : Obligations.BitsRefusesBadRange :=
  fun w lo hi h => bits_of_bad_range w (by omega)

/-- The extractor is `extractLsb'`, read as a number. -/
theorem bits_eq_extractLsb' (w : Word) {lo hi : Nat} (hlo : lo ≤ hi) (hhi : hi ≤ 31) :
    bits w lo hi = .ok (w.extractLsb' lo (hi - lo + 1)).toNat := by
  rw [bits_of_range w hlo hhi, BitVec.extractLsb'_toNat, Nat.shiftRight_eq_div_pow]

/-- A field has the value `v` iff `v` fits and each bit of the field is the bit of `v`. -/
theorem bits_eq_ok_iff (w : Word) {lo hi v : Nat} (hlo : lo ≤ hi) (hhi : hi ≤ 31) (hv : v < 2 ^ (hi - lo + 1)) :
    bits w lo hi = .ok v ↔ ∀ k < hi - lo + 1, w.getLsbD (lo + k) = v.testBit k := by
  rw [bits_of_range w hlo hhi, Except.ok.injEq]
  refine ⟨fun h k hk => ?_, fun h => Nat.eq_of_testBit_eq fun k => ?_⟩
  · rw [← h, testBit_field, decide_eq_true hk, Bool.true_and]
  · rw [testBit_field]
    by_cases hk : k < hi - lo + 1
    · simp [hk, h k hk]
    · simp [hk, Nat.testBit_lt_two_pow (hv.trans_le (Nat.pow_le_pow_right (by decide) (Nat.le_of_not_lt hk)))]

theorem bits_src1Of (w : Word) : bits w 15 19 = .ok (src1Of w).toNat := bits_eq_extractLsb' w (by decide) (by decide)
theorem bits_src2Of (w : Word) : bits w 20 24 = .ok (src2Of w).toNat := bits_eq_extractLsb' w (by decide) (by decide)
theorem bits_rdOf (w : Word) : bits w 7 11 = .ok (rdOf w).toNat := bits_eq_extractLsb' w (by decide) (by decide)

theorem RegIdx.toNat_lt (r : RegIdx) : r.toNat < 32 := r.isLt
theorem RegIdx.toNat_le (r : RegIdx) : r.toNat ≤ 31 := Nat.le_of_lt_succ r.toNat_lt

/-- Settles O27. -/
theorem registerAccessorsAreFields : Obligations.RegisterAccessorsAreFields :=
  fun w => ⟨bits_src1Of w, bits_src2Of w, bits_rdOf w, RegIdx.toNat_le _, RegIdx.toNat_le _, RegIdx.toNat_le _⟩

theorem toNat_immIOf (w : Word) : (immIOf w).toNat = w.toNat / 2 ^ 20 := by
  have := w.isLt
  rw [immIOf, BitVec.toNat_setWidth, BitVec.extractLsb'_toNat, Nat.shiftRight_eq_div_pow]
  omega

theorem toNat_immIOf_le (w : Word) : (immIOf w).toNat ≤ 4095 := by
  have := w.isLt
  rw [toNat_immIOf]
  omega

/-- Masking the low 12 bits away is rounding down to a multiple of 4096. -/
theorem toNat_and_upper (w : Word) : (w &&& 0xFFFFF000#32).toNat = w.toNat / 4096 * 4096 := by
  have hand : w &&& 0xFFFFF000#32 = w >>> 12 <<< 12 := by
    ext k hk
    interval_cases k <;> simp
  have := w.isLt
  rw [hand, BitVec.toNat_shiftLeft, BitVec.toNat_ushiftRight, Nat.shiftRight_eq_div_pow, Nat.shiftLeft_eq]
  omega

theorem toNat_and_lower (w : Word) : (w &&& 0x00000FFF#32).toNat = w.toNat % 4096 := by
  rw [BitVec.toNat_and]
  exact Nat.and_two_pow_sub_one_eq_mod w.toNat 12

theorem toNat_immUOf (w : Word) : (immUOf w).toNat = w.toNat / 4096 * 4096 := toNat_and_upper w

theorem bits_immIOf (w : Word) : bits w 20 31 = .ok (immIOf w).toNat := by
  have := w.isLt
  rw [bits_of_range w (by decide) (by decide), toNat_immIOf, Except.ok.injEq]
  omega

theorem bits_upper (w : Word) : bits w 12 31 = .ok (w.toNat / 4096) := by
  have := w.isLt
  rw [bits_of_range w (by decide) (by decide), Except.ok.injEq]
  omega

/-- Settles O28: `immI` is `w / 2^20` and `immU` is `w` rounded down to a multiple of 4096. -/
theorem immediatesAreFields : Obligations.ImmediatesAreFields := by
  intro w
  refine ⟨bits_immIOf w, toNat_immIOf_le w, ⟨_, bits_upper w, toNat_immUOf w⟩, ?_, ?_⟩
  · rw [toNat_immUOf, Nat.mul_mod_left]
  · rw [bits_upper, bits_upper, toNat_immUOf, Nat.mul_div_cancel _ (by decide)]

/-! ### The AND-compares as fields (rules R81, R83) -/

/-- The AND-compare, bit by bit. -/
theorem hitsEntry_iff (w mask val : Word) : hitsEntry w mask val = true ↔
    ∀ k < 32, (w.getLsbD k && mask.getLsbD k) = val.getLsbD k := by
  rw [hitsEntry, beq_iff_eq]
  refine ⟨fun h k _ => ?_, fun h => BitVec.eq_of_getLsbD_eq fun k hk => ?_⟩
  · rw [← h, BitVec.getLsbD_and]
  · rw [BitVec.getLsbD_and, h k hk]

theorem hitsAuipc_iff (w : Word) : hitsAuipc w = true ↔ bits w 0 6 = .ok 0x17 := by
  rw [hitsAuipc, hitsEntry_iff, bits_eq_ok_iff w (by decide) (by decide) (by decide)]
  simp only [Nat.forall_lt_succ_right]
  simp [Nat.testBit, and_assoc]

theorem hitsAdd_iff (w : Word) :
    hitsAdd w = true ↔ bits w 0 6 = .ok 0x33 ∧ bits w 12 14 = .ok 0 ∧ bits w 25 31 = .ok 0 := by
  rw [hitsAdd, hitsEntry_iff, bits_eq_ok_iff w (by decide) (by decide) (by decide),
    bits_eq_ok_iff w (by decide) (by decide) (by decide), bits_eq_ok_iff w (by decide) (by decide) (by decide)]
  simp only [Nat.forall_lt_succ_right]
  simp [Nat.testBit, and_assoc]

theorem hitsAddi_iff (w : Word) : hitsAddi w = true ↔ bits w 0 6 = .ok 0x13 ∧ bits w 12 14 = .ok 0 := by
  rw [hitsAddi, hitsEntry_iff, bits_eq_ok_iff w (by decide) (by decide) (by decide),
    bits_eq_ok_iff w (by decide) (by decide) (by decide)]
  simp only [Nat.forall_lt_succ_right]
  simp [Nat.testBit, and_assoc]

end Sys2Proof
end

section
/-!
The encoding: decoding and encoding undo each other (rules R62 to R64, R81), and the unrecognized words (rule R83).
-/

namespace Sys2Proof

/-! ### The decoder, one equation per entry -/

theorem decode_of_hitsAuipc {w : Word} (h : hitsAuipc w = true) : decode w = .ok (.auipc (rdOf w) (immUOf w)) := by
  simp [decode, h]

theorem decode_of_hitsAdd {w : Word} (ha : hitsAuipc w = false) (h : hitsAdd w = true) :
    decode w = .ok (.add (rdOf w) (src1Of w) (src2Of w)) := by
  simp [decode, ha, h]

theorem decode_of_hitsAddi {w : Word} (ha : hitsAuipc w = false) (hd : hitsAdd w = false) (h : hitsAddi w = true) :
    decode w = .ok (.addi (rdOf w) (src1Of w) (immIOf w)) := by
  simp [decode, ha, hd, h]

theorem decode_eq_error_iff (w : Word) : decode w = .error (.unrecognizedInstruction w) ↔
    hitsAuipc w = false ∧ hitsAdd w = false ∧ hitsAddi w = false := by
  unfold decode
  split_ifs with h1 h2 h3
  · simp [h1]
  · simp [h2]
  · simp [h3]
  · simp [h1, h2, h3]

/-! ### The fields of an encoded instruction -/

/-- The register an instruction writes. -/
def Instr.rd : Instr → RegIdx
  | .auipc rd _ => rd
  | .add rd _ _ => rd
  | .addi rd _ _ => rd

theorem rdOf_encode (i : Instr) : rdOf (encode i) = i.rd := by
  ext k hk
  cases i
  all_goals
    simp only [rdOf, encode, placeReg, Instr.rd]
    interval_cases k <;> simp

theorem src1Of_encode_add (rd src1 src2 : RegIdx) : src1Of (encode (.add rd src1 src2)) = src1 := by
  ext k hk
  interval_cases k <;> simp [src1Of, encode, placeReg]

theorem src2Of_encode_add (rd src1 src2 : RegIdx) : src2Of (encode (.add rd src1 src2)) = src2 := by
  ext k hk
  interval_cases k <;> simp [src2Of, encode, placeReg]

theorem src1Of_encode_addi (rd src1 : RegIdx) (immI : Word) : src1Of (encode (.addi rd src1 immI)) = src1 := by
  ext k hk
  interval_cases k <;> simp [src1Of, encode, placeReg]

/-- A U-type immediate is well-formed iff it is a multiple of 4096 (rule R72). -/
theorem immUWellFormed_iff (imm : Word) : immUWellFormed imm = true ↔ imm.toNat % 4096 = 0 := by
  rw [immUWellFormed, beq_iff_eq, ← BitVec.toNat_inj, toNat_and_lower]
  rfl

/-- An I-type immediate is well-formed iff it is at most 4095 (rule R71). -/
theorem immIWellFormed_iff (imm : Word) : immIWellFormed imm = true ↔ imm.toNat < 4096 := by
  rw [immIWellFormed, beq_iff_eq, ← BitVec.toNat_inj, toNat_and_upper, BitVec.toNat_ofNat]
  omega

theorem immUOf_encode_auipc (rd : RegIdx) {immU : Word} (h : immUWellFormed immU = true) :
    immUOf (encode (.auipc rd immU)) = immU := by
  have hcut : immUOf (encode (.auipc rd immU)) = immU &&& 0xFFFFF000#32 := by
    ext k hk
    simp only [immUOf, encode, placeReg]
    interval_cases k <;> simp
  rw [immUWellFormed_iff] at h
  rw [hcut, ← BitVec.toNat_inj, toNat_and_upper]
  omega

theorem immIOf_encode_addi (rd src1 : RegIdx) {immI : Word} (h : immIWellFormed immI = true) :
    immIOf (encode (.addi rd src1 immI)) = immI := by
  have hcut : immIOf (encode (.addi rd src1 immI)) = immI &&& 0x00000FFF#32 := by
    ext k hk
    simp only [immIOf, encode, placeReg]
    interval_cases k <;> simp
  rw [immIWellFormed_iff] at h
  rw [hcut, ← BitVec.toNat_inj, toNat_and_lower, Nat.mod_eq_of_lt h]

/-! ### Decoding an encoded instruction -/

/-- Which entries the encoding hits, for every well-formed instruction. -/
theorem encodesOwnEntry : ∀ i : Instr, Laws.EncodesOwnEntry.Statement i
  | .auipc rd immU => Laws.EncodesOwnEntry.auipc rd immU
  | .add rd src1 src2 => Laws.EncodesOwnEntry.add rd src1 src2
  | .addi rd src1 immI => Laws.EncodesOwnEntry.addi rd src1 immI

theorem decode_encode {i : Instr} (h : i.wellFormed = true) : decode (encode i) = .ok i := by
  have hown := encodesOwnEntry i h
  cases i with
  | auipc rd immU =>
    obtain ⟨hauipc, -⟩ := List.cons_eq_cons.mp hown
    rw [decode_of_hitsAuipc hauipc, rdOf_encode, Instr.rd, immUOf_encode_auipc rd h]
  | add rd src1 src2 =>
    obtain ⟨hauipc, hrest⟩ := List.cons_eq_cons.mp hown
    obtain ⟨hadd, -⟩ := List.cons_eq_cons.mp hrest
    rw [decode_of_hitsAdd hauipc hadd, rdOf_encode, Instr.rd, src1Of_encode_add, src2Of_encode_add]
  | addi rd src1 immI =>
    obtain ⟨hauipc, hrest⟩ := List.cons_eq_cons.mp hown
    obtain ⟨hadd, hrest⟩ := List.cons_eq_cons.mp hrest
    obtain ⟨haddi, -⟩ := List.cons_eq_cons.mp hrest
    rw [decode_of_hitsAddi hauipc hadd haddi, rdOf_encode, Instr.rd, src1Of_encode_addi, immIOf_encode_addi rd src1 h]

/-- Settles O36: the encoding hits the instruction's own entry only, and each operand is read back from its field. -/
theorem decodeOfEncode : Obligations.DecodeOfEncode :=
  fun _ => decode_encode

/-! ### Encoding what the decoder reads -/

/-- The bits an entry fixes and the operand fields are together the whole word. -/
theorem encode_of_decode {w : Word} {i : Instr} (h : decode w = .ok i) : encode i = w := by
  ext k hk
  obtain ⟨hhit, rfl⟩ | ⟨hhit, rfl⟩ | ⟨hhit, rfl⟩ := decode_ok h
  all_goals
    simp only [hitsAuipc, hitsAdd, hitsAddi, hitsEntry_iff] at hhit
    specialize hhit k hk
    simp only [encode, placeReg, rdOf, src1Of, src2Of, immIOf, immUOf]
    interval_cases k <;> simp_all

theorem immUWellFormed_immUOf (w : Word) : immUWellFormed (immUOf w) = true := by
  rw [immUWellFormed_iff, toNat_immUOf, Nat.mul_mod_left]

theorem immIWellFormed_immIOf (w : Word) : immIWellFormed (immIOf w) = true := by
  have := w.isLt
  rw [immIWellFormed_iff, toNat_immIOf]
  omega

theorem wellFormed_of_decode {w : Word} {i : Instr} (h : decode w = .ok i) : i.wellFormed = true := by
  obtain ⟨-, rfl⟩ | ⟨-, rfl⟩ | ⟨-, rfl⟩ := decode_ok h
  · exact immUWellFormed_immUOf w
  · rfl
  · exact immIWellFormed_immIOf w

/-- Settles O37. -/
theorem encodeOfDecode : Obligations.EncodeOfDecode :=
  fun _ _ h => ⟨wellFormed_of_decode h, encode_of_decode h⟩

/-- Settles O35. -/
theorem writtenWordsDecode : Obligations.WrittenWordsDecode := by
  unfold Obligations.WrittenWordsDecode
  decide

/-! ### The unrecognized words -/

/-- Settles O38: the three AND-compares in terms of opcode, funct3 and funct7. -/
theorem unrecognizedWordsByField : Obligations.UnrecognizedWordsByField := by
  intro w
  rw [decode_eq_error_iff, Bool.eq_false_iff, Bool.eq_false_iff, Bool.eq_false_iff, Ne, Ne, Ne, hitsAuipc_iff,
    hitsAdd_iff, hitsAddi_iff]
  tauto

end Sys2Proof
end

section
/-!
The pattern matcher: it fails closed (rule R77), is an AND-compare (rule R78), and its laws (rule R79).
-/

namespace Sys2Proof

theorem patternWellFormed_iff (p : Pattern) : patternWellFormed p = true ↔
    (cleaned p).length = 32 ∧ ∀ c ∈ cleaned p, isPatternChar c = true := by
  simp [patternWellFormed]

theorem isPatternChar_iff (c : Char) : isPatternChar c = true ↔ c = '0' ∨ c = '1' ∨ c = '?' := by
  simp [isPatternChar, or_assoc]

theorem patternWellFormed_of_wordMatches {w : Word} {p : Pattern} (h : wordMatches w p = true) :
    patternWellFormed p = true := by
  obtain ⟨hlen, hchars, -⟩ := (matcherTestsEveryPosition w p).mp h
  exact (patternWellFormed_iff p).mpr ⟨hlen, fun c hc => (isPatternChar_iff c).mpr (hchars c hc)⟩

/-- Settles O30: a pattern that matches some word is well-formed. -/
theorem malformedPatternMatchesNothing : Obligations.MalformedPatternMatchesNothing := by
  intro w p hp
  by_contra hm
  rw [Bool.not_eq_false] at hm
  simp [patternWellFormed_of_wordMatches hm] at hp

/-! ### The precompiled form (rule R78) -/

/-- A list of bits read most significant first: bit `k` of the value is the `k`-th from the end. -/
theorem testBit_foldl_bits (bs : List Bool) (k : Nat) :
    (bs.foldl (fun n (b : Bool) => 2 * n + b.toNat) 0).testBit k = bs.reverse.getD k false := by
  induction bs using List.reverseRecOn generalizing k with
  | nil => simp
  | append_singleton bs b ih =>
    rw [List.foldl_concat, List.reverse_concat, ← Nat.bit_val]
    cases k with
    | zero => simp
    | succ k => simp [Nat.testBit_bit_succ, ih]

theorem getLsbD_wordOfMsbBits {bs : List Bool} (h : bs.length = 32) {k : Nat} (hk : k < 32) :
    (wordOfMsbBits bs).getLsbD (31 - k) = bs[k] := by
  have hlt : 31 - k < bs.reverse.length := by rw [List.length_reverse]; omega
  rw [wordOfMsbBits, BitVec.getLsbD_ofNat, testBit_foldl_bits, List.getD_eq_getElem _ _ hlt, List.getElem_reverse]
  simp only [h, show 31 - k < 32 by omega, decide_true, Bool.true_and]
  congr 1
  omega

/-- Positions counted from the top (rule R9) are all the positions. -/
theorem forall_lt_32_iff_msb (P : Nat → Prop) : (∀ k < 32, P k) ↔ ∀ k < 32, P (31 - k) := by
  refine ⟨fun h k _ => h _ (by omega), fun h k hk => ?_⟩
  have := h (31 - k) (by omega)
  rwa [show 31 - (31 - k) = k by omega] at this

/-- A character of the alphabet against a bit is one position of an AND-compare. -/
theorem charMatches_iff_masked {c : Char} (hc : isPatternChar c = true) (b : Bool) :
    charMatches c b = true ↔ (b && (c == '0' || c == '1')) = (c == '1') := by
  obtain rfl | rfl | rfl := (isPatternChar_iff c).mp hc <;> cases b <;> decide

theorem wordMatches_eq_hitsEntry (w : Word) {p : Pattern} (hp : patternWellFormed p = true) :
    wordMatches w p = hitsEntry w (patternMask p) (patternMatch p) := by
  obtain ⟨hlen, hchars⟩ := (patternWellFormed_iff p).mp hp
  rw [Bool.eq_iff_iff, wordMatches_iff, hitsEntry_iff, forall_lt_32_iff_msb, exists_prop_of_true hlen]
  refine forall₂_congr fun k hk => ?_
  rw [charMatches_iff_masked (hchars _ (List.getElem_mem _)), patternMask, patternMatch,
    getLsbD_wordOfMsbBits (by simpa) hk, getLsbD_wordOfMsbBits (by simpa) hk, List.getElem_map, List.getElem_map]

/-- Settles O31. -/
theorem patternIsMaskAndMatch : Obligations.PatternIsMaskAndMatch :=
  fun w _ hp => wordMatches_eq_hitsEntry w hp

/-- Settles O32: the three patterns are well-formed, and their mask and match values are those of the columns. -/
theorem defaultPatternsAreMaskCompares : Obligations.DefaultPatternsAreMaskCompares := by
  intro w
  rw [wordMatches_eq_hitsEntry w (p := Machine.patternAuipc) (by decide),
    wordMatches_eq_hitsEntry w (p := Machine.patternAdd) (by decide),
    wordMatches_eq_hitsEntry w (p := Machine.patternAddi) (by decide)]
  have masks : patternMask Machine.patternAuipc = 0x7F#32 ∧ patternMatch Machine.patternAuipc = 0x17#32 ∧
      patternMask Machine.patternAdd = 0xFE00707F#32 ∧ patternMatch Machine.patternAdd = 0x33#32 ∧
      patternMask Machine.patternAddi = 0x707F#32 ∧ patternMatch Machine.patternAddi = 0x13#32 := by decide
  obtain ⟨h1, h2, h3, h4, h5, h6⟩ := masks
  rw [h1, h2, h3, h4, h5, h6]
  exact ⟨rfl, rfl, rfl⟩

/-! ### Reflexivity, widening and whitespace (rule R79) -/

theorem cleaned_append (p q : Pattern) : cleaned (p ++ q) = cleaned p ++ cleaned q :=
  List.filter_append ..

theorem cleaned_of_spaces {space : Pattern} (h : ∀ c ∈ space, isPatternSpace c = true) : cleaned space = [] := by
  simpa [cleaned] using h

/-- Settles O34: the matcher sees a pattern through its cleaned form only. -/
theorem whitespaceIsCosmetic : Obligations.WhitespaceIsCosmetic := by
  intro w p q space hspace
  have hclean : cleaned (p ++ space ++ q) = cleaned (p ++ q) := by
    rw [cleaned_append, cleaned_append, cleaned_append, cleaned_of_spaces hspace, List.append_nil]
  rw [wordMatches, wordMatches, hclean]

/-- A character of the alphabet is no whitespace. -/
theorem cleaned_of_patternChars {p : Pattern} (h : ∀ c ∈ p, isPatternChar c = true) : cleaned p = p := by
  rw [cleaned, List.filter_eq_self]
  intro c hc
  obtain rfl | rfl | rfl := (isPatternChar_iff c).mp (h c hc) <;> decide

/-- The binary rendering of a word with the positions in `S` replaced by `?`. -/
def widened (w : Word) (S : Nat → Bool) : Pattern :=
  (renderBinary w).zipIdx.map (fun c => if S c.2 then '?' else c.1)

theorem length_widened (w : Word) (S : Nat → Bool) : (widened w S).length = 32 := by
  simp [widened, renderBinary]

theorem getElem_widened (w : Word) (S : Nat → Bool) {k : Nat} (hk : k < (widened w S).length) :
    (widened w S)[k] = if S k then '?' else if w.getLsbD (31 - k) then '1' else '0' := by
  simp [widened, renderBinary]

theorem cleaned_widened (w : Word) (S : Nat → Bool) : cleaned (widened w S) = widened w S := by
  apply cleaned_of_patternChars
  intro c hc
  obtain ⟨k, hk, rfl⟩ := List.mem_iff_getElem.mp hc
  rw [getElem_widened, isPatternChar_iff]
  split_ifs <;> simp

/-- Widening nothing leaves the rendering. -/
theorem widened_nowhere (w : Word) : widened w (fun _ => false) = renderBinary w := by
  simp [widened]

theorem wordMatches_widened_iff (w v : Word) (S : Nat → Bool) : wordMatches v (widened w S) = true ↔
    ∀ k < 32, S k = false → v.getLsbD (31 - k) = w.getLsbD (31 - k) := by
  rw [wordMatches_iff]
  simp only [cleaned_widened, length_widened, exists_true_left, getElem_widened]
  refine forall₂_congr fun k _ => ?_
  cases S k <;> cases w.getLsbD (31 - k) <;> simp [charMatches]

/-- Settles O33: reflexivity is widening nowhere. -/
theorem wideningMatchesAgreeingWords : Obligations.WideningMatchesAgreeingWords := by
  intro w v S
  refine ⟨?_, wordMatches_widened_iff w v S⟩
  rw [← widened_nowhere, wordMatches_widened_iff]
  exact fun _ _ _ => rfl

end Sys2Proof
end

section
/-!
The default table: which words its entries hit and how many (rules R81 to R83), and that the controller with it is the
block that decodes first (rules R85, R102).
-/

namespace Sys2Proof.Machine

/-- The default patterns are the AND-compares the decoder uses. -/
theorem wordMatches_default (w : Word) : wordMatches w patternAuipc = hitsAuipc w ∧
    wordMatches w patternAdd = hitsAdd w ∧ wordMatches w patternAddi = hitsAddi w :=
  defaultPatternsAreMaskCompares w

theorem hits_defaultTable (w : Word) : defaultTable.hits w = Laws.entryHits w := by
  obtain ⟨hauipc, hadd, haddi⟩ := wordMatches_default w
  simp [Table.hits, defaultTable, defaultEntries, Laws.entryHits, hauipc, hadd, haddi]

/-! ### No word hits two entries (rule R82) -/

/-- The opcode that entry `k` of the default table asks for (rule R81). -/
def entryOpcode (k : Nat) : Nat := [0x17, 0x33, 0x13].getD k 0

theorem opcode_of_hit {w : Word} {k : Nat} (h : (defaultTable.hits w)[k]? = some true) :
    k < 3 ∧ bits w 0 6 = .ok (entryOpcode k) := by
  rw [hits_defaultTable, Laws.entryHits] at h
  match k, h with
  | 0, h => exact ⟨by decide, (hitsAuipc_iff w).mp (by simpa using h)⟩
  | 1, h => exact ⟨by decide, ((hitsAdd_iff w).mp (by simpa using h)).1⟩
  | 2, h => exact ⟨by decide, ((hitsAddi_iff w).mp (by simpa using h)).1⟩

/-- Settles O40: the three entries ask for three different opcodes. -/
theorem defaultEntriesDisjoint : Obligations.DefaultEntriesDisjoint := by
  intro w j k hj hk
  obtain ⟨hj3, hjop⟩ := opcode_of_hit hj
  obtain ⟨hk3, hkop⟩ := opcode_of_hit hk
  have hop : entryOpcode j = entryOpcode k := by simpa [hjop] using hkop
  revert hop
  interval_cases j <;> interval_cases k <;> decide

/-! ### How many words each entry hits (rule R83) -/

/-- A U-type immediate from its field (rule R72). -/
def upperImmediate (u : BitVec 20) : Word := u.setWidth 32 <<< 12

theorem toNat_upperImmediate (u : BitVec 20) : (upperImmediate u).toNat = u.toNat * 4096 := by
  have := u.isLt
  rw [upperImmediate, BitVec.toNat_shiftLeft, BitVec.toNat_setWidth, Nat.shiftLeft_eq]
  omega

theorem upperImmediate_field (w : Word) : upperImmediate (w.extractLsb' 12 20) = immUOf w := by
  have := w.isLt
  rw [← BitVec.toNat_inj, toNat_upperImmediate, toNat_immUOf, BitVec.extractLsb'_toNat, Nat.shiftRight_eq_div_pow]
  omega

/-- The words that entry `k` of the default table hits. -/
def entryWords (k : Nat) : Set Word := {w | (defaultTable.hits w)[k]? = some true}

/-- An entry hits as many words as its instruction has operands: distinct operands encode to distinct words (rule
R81), and every word the entry hits decodes to some operands. -/
theorem ncard_entryWords {α : Type} {mk : α → Instr} {k : Nat} (hinj : Function.Injective mk)
    (hwf : ∀ x, (mk x).wellFormed = true) (hown : ∀ x, (Laws.ownEntry (mk x))[k]? = some true)
    (honto : ∀ w ∈ entryWords k, ∃ x, decode w = .ok (mk x)) : (entryWords k).ncard = Nat.card α := by
  have hrange : entryWords k = Set.range (fun x => encode (mk x)) := by
    ext w
    refine ⟨fun hw => ?_, ?_⟩
    · obtain ⟨x, hx⟩ := honto w hw
      exact ⟨x, encode_of_decode hx⟩
    · rintro ⟨x, rfl⟩
      rw [entryWords, Set.mem_ofPred_eq, hits_defaultTable, encodesOwnEntry (mk x) (hwf x)]
      exact hown x
  rw [hrange]
  apply Set.ncard_range_of_injective
  intro x y hxy
  have hdec := congrArg decode hxy
  simp only [decode_encode (hwf _), Except.ok.injEq] at hdec
  exact hinj hdec

theorem mem_entryWords_zero {w : Word} : w ∈ entryWords 0 ↔ hitsAuipc w = true := by
  simp [entryWords, hits_defaultTable, Laws.entryHits]

theorem mem_entryWords_one {w : Word} : w ∈ entryWords 1 ↔ hitsAdd w = true := by
  simp [entryWords, hits_defaultTable, Laws.entryHits]

theorem mem_entryWords_two {w : Word} : w ∈ entryWords 2 ↔ hitsAddi w = true := by
  simp [entryWords, hits_defaultTable, Laws.entryHits]

/-- A word one entry hits, no other entry hits (rule R82). -/
theorem entryWords_disjoint {j k : Nat} (h : j ≠ k) : Disjoint (entryWords j) (entryWords k) :=
  Set.disjoint_left.mpr fun w hj hk => h (defaultEntriesDisjoint w j k hj hk)

theorem not_hit_of_hit {w : Word} {j k : Nat} (hk : w ∈ entryWords k) (h : j ≠ k) : w ∉ entryWords j :=
  Set.disjoint_right.mp (entryWords_disjoint h) hk

theorem card_bitVec (n : Nat) : Nat.card (BitVec n) = 2 ^ n := by
  rw [Nat.card_eq_fintype_card, ← FinEnum.card_eq_fintypeCard, FinEnum.card_bitVec]

theorem ncard_auipc_words : (entryWords 0).ncard = 2 ^ 25 := by
  rw [ncard_entryWords (mk := fun x : RegIdx × BitVec 20 => .auipc x.1 (upperImmediate x.2))]
  · simp only [Nat.card_prod, card_bitVec, Nat.reducePow, Nat.reduceMul]
  · rintro ⟨rd, u⟩ ⟨rd', u'⟩ h
    obtain ⟨hrd, hu⟩ := Instr.auipc.inj h
    rw [← BitVec.toNat_inj, toNat_upperImmediate, toNat_upperImmediate] at hu
    exact Prod.ext hrd (BitVec.eq_of_toNat_eq (by omega))
  · intro x
    rw [Instr.wellFormed, immUWellFormed_iff, toNat_upperImmediate, Nat.mul_mod_left]
  · exact fun _ => rfl
  · intro w hw
    refine ⟨(rdOf w, w.extractLsb' 12 20), ?_⟩
    rw [decode_of_hitsAuipc (mem_entryWords_zero.mp hw), upperImmediate_field]

theorem ncard_add_words : (entryWords 1).ncard = 2 ^ 15 := by
  rw [ncard_entryWords (mk := fun x : RegIdx × RegIdx × RegIdx => .add x.1 x.2.1 x.2.2)]
  · simp only [Nat.card_prod, card_bitVec, Nat.reducePow, Nat.reduceMul]
  · rintro ⟨rd, src1, src2⟩ ⟨rd', src1', src2'⟩ h
    obtain ⟨rfl, rfl, rfl⟩ := Instr.add.inj h
    rfl
  · exact fun _ => rfl
  · exact fun _ => rfl
  · intro w hw
    have hauipc := not_hit_of_hit hw (j := 0) (by decide)
    rw [mem_entryWords_zero, Bool.not_eq_true] at hauipc
    exact ⟨(rdOf w, src1Of w, src2Of w), decode_of_hitsAdd hauipc (mem_entryWords_one.mp hw)⟩

theorem ncard_addi_words : (entryWords 2).ncard = 2 ^ 22 := by
  rw [ncard_entryWords (mk := fun x : RegIdx × RegIdx × BitVec 12 => .addi x.1 x.2.1 (x.2.2.setWidth 32))]
  · simp only [Nat.card_prod, card_bitVec, Nat.reducePow, Nat.reduceMul]
  · rintro ⟨rd, src1, v⟩ ⟨rd', src1', v'⟩ h
    obtain ⟨rfl, rfl, hv⟩ := Instr.addi.inj h
    rw [← BitVec.toNat_inj, BitVec.toNat_setWidth_of_le (by decide), BitVec.toNat_setWidth_of_le (by decide),
      BitVec.toNat_inj] at hv
    exact congrArg (fun u => (rd, src1, u)) hv
  · intro x
    rw [Instr.wellFormed, immIWellFormed_iff, BitVec.toNat_setWidth_of_le (by decide)]
    exact x.2.2.isLt
  · exact fun _ => rfl
  · intro w hw
    have hauipc := not_hit_of_hit hw (j := 0) (by decide)
    have hadd := not_hit_of_hit hw (j := 1) (by decide)
    rw [mem_entryWords_zero, Bool.not_eq_true] at hauipc
    rw [mem_entryWords_one, Bool.not_eq_true] at hadd
    exact ⟨(rdOf w, src1Of w, w.extractLsb' 20 12), decode_of_hitsAddi hauipc hadd (mem_entryWords_two.mp hw)⟩

/-- The words no entry hits are those outside the three sets. -/
theorem unrecognizedWords_eq :
    {w | defaultTable.anyHit w = false} = (entryWords 0 ∪ entryWords 1 ∪ entryWords 2)ᶜ := by
  ext w
  simp [Table.anyHit, hits_defaultTable, Laws.entryHits, mem_entryWords_zero, mem_entryWords_one, mem_entryWords_two,
    and_assoc]

theorem ncard_unrecognized_words : {w | defaultTable.anyHit w = false}.ncard = 4257185792 := by
  have h01 := entryWords_disjoint (j := 0) (k := 1) (by decide)
  have h02 := entryWords_disjoint (j := 0) (k := 2) (by decide)
  have h12 := entryWords_disjoint (j := 1) (k := 2) (by decide)
  rw [unrecognizedWords_eq]
  apply Set.ncard_compl_of_ncard_eq_add
  rw [Set.ncard_union_eq (Set.disjoint_union_left.mpr ⟨h02, h12⟩), Set.ncard_union_eq h01, ncard_auipc_words,
    ncard_add_words, ncard_addi_words, card_bitVec]
  norm_num

/-- Settles O39: the counts of the three entries, and 2^32 less their sum, since they are disjoint. -/
theorem recognizedWordCounts : Obligations.RecognizedWordCounts := by
  refine ⟨?_, ncard_unrecognized_words⟩
  exact congrArg₂ List.cons ncard_auipc_words
    (congrArg₂ List.cons ncard_add_words (congrArg₂ List.cons ncard_addi_words rfl))

/-! ### The two controllers (rules R85, R102) -/

theorem runAction_actionAuipc (w : Word) : runAction actionAuipc w = exec (.auipc (rdOf w) (immUOf w)) := by
  funext s
  exact runAction_ok rfl |>.trans (if_pos rfl)

theorem runAction_actionAdd (w : Word) : runAction actionAdd w = exec (.add (rdOf w) (src1Of w) (src2Of w)) := by
  funext s
  exact runAction_ok rfl |>.trans (if_pos rfl)

theorem runAction_actionAddi (w : Word) : runAction actionAddi w = exec (.addi (rdOf w) (src1Of w) (immIOf w)) := by
  funext s
  exact runAction_ok rfl |>.trans (if_pos rfl)

/-- Trying the default table's patterns selects what decoding selects, with the same effect. -/
theorem selectFirstMatch_defaultTable : selectFirstMatch defaultTable = selectDecoded := by
  funext w
  have hfirst : selectFirstMatch defaultTable w =
      if hitsAuipc w then some (runAction actionAuipc w) else if hitsAdd w then some (runAction actionAdd w)
      else if hitsAddi w then some (runAction actionAddi w) else none := by
    obtain ⟨hauipc, hadd, haddi⟩ := wordMatches_default w
    simp only [selectFirstMatch, Table.firstMatch, defaultTable, defaultEntries, List.find?, hauipc, hadd, haddi]
    cases hitsAuipc w <;> cases hitsAdd w <;> cases hitsAddi w <;> rfl
  rw [hfirst, runAction_actionAuipc, runAction_actionAdd, runAction_actionAddi, selectDecoded, decode]
  split_ifs <;> rfl

/-- Settles O41. -/
theorem defaultTableStepIsStep : Obligations.DefaultTableStepIsStep := by
  intro s
  rw [stepWith, selectFirstMatch_defaultTable, step]

end Sys2Proof.Machine
end

section
/-!
What a request keeps, for the block and for the controller with any table, and the invariant of rule R27.
-/

namespace Sys2Proof.Machine

/-! ### Selections whose actions write registers only (rule R106) -/

/-- Whatever action the selection gives, if it answers a next state, that state differs from the one it ran on in its
registers at most. -/
def Selection.WritesRegistersOnly (select : Selection) : Prop :=
  ∀ (w : Word) (action : State → Host.Outcome State Fault Refusal) (s t : State),
    select w = some action → action s = .next t → ∃ cpu : Cpu, cpu.pc = s.cpu.pc ∧ t = { s with cpu := cpu }

theorem selectDecoded_writesRegistersOnly : selectDecoded.WritesRegistersOnly := by
  intro w action s t hsel hact
  cases hd : decode w with
  | error e => simp [selectDecoded_error hd] at hsel
  | ok i =>
    obtain rfl : exec i = action := by simpa [selectDecoded_ok hd] using hsel
    obtain ⟨rd, v, hexec⟩ := exec_writes_one_register i s
    obtain rfl : s.writeReg rd v = t := by simpa [hexec] using hact
    exact ⟨s.cpu.writeReg rd v, rfl, rfl⟩

theorem selectFirstMatch_writesRegistersOnly (T : Table) : (selectFirstMatch T).WritesRegistersOnly := by
  intro w action s t hsel hact
  cases hm : T.firstMatch w with
  | none => simp [selectFirstMatch_none hm] at hsel
  | some e =>
    obtain rfl : runAction e.action w = action := by simpa [selectFirstMatch_some hm] using hsel
    obtain ⟨cpu, -, hpc, ht⟩ := runAction_next hact
    exact ⟨cpu, hpc, ht⟩

/-- What a completed request leaves: the pc is advanced once, a response is given and recorded, and of the rest only
registers can differ. -/
theorem serveRequest_responds {select : Selection} (hsel : select.WritesRegistersOnly) {w : Word} {s t : State}
    (h : serveRequest select w s = .next t) :
    ∃ (cpu : Cpu) (r : Response), cpu.pc = add32 s.cpu.pc 4#32 ∧ t = State.respond r { s with cpu := cpu } := by
  obtain ⟨-, rfl⟩ | ⟨action, u, hsome, hact, rfl⟩ := serveRequest_next h
  · exact ⟨s.advancePc.cpu, .unrecognized w, rfl, rfl⟩
  · obtain ⟨cpu, hpc, rfl⟩ := hsel w action _ u hsome hact
    exact ⟨cpu, .ok, hpc, rfl⟩

/-! ### The invariant -/

/-- The pre-increment keeps a multiple of 4 one, at the wrap of the pc too (4 divides 2^32). -/
theorem add32_four_aligned {pc : Word} (h : pc.toNat % 4 = 0) : (add32 pc 4#32).toNat % 4 = 0 := by
  rw [add32_toNat]
  simp only [BitVec.toNat_ofNat]
  omega

theorem serveRequest_keeps_inv {select : Selection} (hsel : select.WritesRegistersOnly) {w : Word} {s t : State}
    (hmem : s.mem.wf = true) (hpc : s.pcAligned) (h : serveRequest select w s = .next t) : t.Inv := by
  obtain ⟨cpu, r, hcpu, rfl⟩ := serveRequest_responds hsel h
  refine ⟨hmem, ?_, .inr rfl⟩
  rw [State.pcAligned, State.respond_cpu, hcpu]
  exact add32_four_aligned hpc

/-- Every event keeps the invariant, whatever selects the actions, as long as they write registers only. -/
theorem serveNext_keeps_inv {select : Selection} (hsel : select.WritesRegistersOnly) {s t : State} (hs : s.Inv)
    (h : serveNext select s = .next t) : t.Inv := by
  obtain ⟨hmem, hpc, hport⟩ := hs
  obtain ⟨-, rfl⟩ | ⟨w, rest, -, hreq⟩ | ⟨rest, -, rfl⟩ | ⟨b, rest, -, rfl⟩ | ⟨a, b, rest, m, -, hwrite, rfl⟩ :=
    serveNext_next h
  case inl => exact ⟨hmem, hpc, hport⟩
  case inr.inl => exact serveRequest_keeps_inv hsel (s := { s with inputs := rest }) hmem hpc hreq
  case inr.inr.inl => exact ⟨hmem, rfl, .inl rfl⟩
  case inr.inr.inr.inl => exact ⟨Memory.wf_grow b hmem, hpc, hport⟩
  case inr.inr.inr.inr => exact ⟨Memory.wf_write hmem hwrite, hpc, hport⟩

/-- Settles O20: `step` and `stepWith T` are `serveNext` of selections that write registers only. -/
theorem stepKeepsInvariant : Obligations.StepKeepsInvariant :=
  fun _ _ hs => ⟨serveNext_keeps_inv selectDecoded_writesRegistersOnly hs,
    fun T => serveNext_keeps_inv (selectFirstMatch_writesRegistersOnly T) hs⟩

/-- Settles O21. -/
theorem resetMeetsInvariant : Obligations.ResetMeetsInvariant :=
  ⟨⟨State.reset_mem_wf, rfl, .inl rfl⟩, fun bs => ⟨Memory.wf_ofBytes bs, rfl, .inl rfl⟩⟩

end Sys2Proof.Machine
end

section
/-!
The memory store's laws (rule R40), told of the bytes a canonical store holds, and its load and store primitives
(rule R11).
-/

namespace Sys2Proof.Machine

/-! ### Canonical stores as their bytes -/

theorem Memory.exists_ofBytes {m : Memory} (h : m.wf = true) : ∃ bs, m = Memory.ofBytes bs :=
  ⟨_, (Memory.ofBytes_bytes h).symm⟩

@[simp] theorem Memory.length_ofBytes (bs : List Byte) : (Memory.ofBytes bs).length = bs.length := by
  simp [Memory.ofBytes]

theorem Memory.getElem_ofBytes (bs : List Byte) (k : Nat) (hk : k < (Memory.ofBytes bs).length) :
    (Memory.ofBytes bs)[k] = (k, bs[k]'(Memory.length_ofBytes bs ▸ hk)) := by
  simp [Memory.ofBytes]

theorem Memory.grow_ofBytes (bs : List Byte) (b : Byte) :
    (Memory.ofBytes bs).grow b = Memory.ofBytes (bs ++ [b]) := by
  simp [Memory.grow, Memory.ofBytes, List.range_succ, List.zip_append]

theorem Memory.write_of_lt {m : Memory} {a : Nat} (b : Byte) (h : a < m.length) :
    m.write a b = .ok (m.map (fun c => if c.1 = a then (a, b) else c)) :=
  if_pos h

theorem Memory.write_of_le {m : Memory} {a : Nat} (b : Byte) (h : m.length ≤ a) :
    m.write a b = .error (.memoryBeyondStore a) :=
  if_neg (Nat.not_lt.mpr h)

theorem Memory.write_ofBytes {bs : List Byte} {a : Nat} (b : Byte) (h : a < bs.length) :
    (Memory.ofBytes bs).write a b = .ok (Memory.ofBytes (bs.set a b)) := by
  rw [Memory.write_of_lt b (by simpa using h), Except.ok.injEq]
  refine List.ext_getElem (by simp) fun k hk _ => ?_
  rw [List.getElem_map, Memory.getElem_ofBytes, Memory.getElem_ofBytes, List.getElem_set]
  by_cases hka : k = a
  · simp [hka]
  · simp [hka, Ne.symm hka]

/-! ### Reading after growing and writing -/

theorem Memory.read_grow {m : Memory} (hm : m.wf = true) (b : Byte) (c : Nat) :
    (m.grow b).read c = if c = m.length then some b else m.read c := by
  obtain ⟨bs, rfl⟩ := Memory.exists_ofBytes hm
  rw [Memory.grow_ofBytes, Memory.read_ofBytes, Memory.read_ofBytes, Memory.length_ofBytes]
  obtain hc | rfl | hc := Nat.lt_trichotomy c bs.length
  · simp [List.getElem?_append_left hc, hc.ne]
  · simp
  · simp [List.getElem?_eq_none, hc.le, hc.ne', Nat.succ_le_of_lt hc]

theorem Memory.read_write {m m' : Memory} {a : Nat} {b : Byte} (hm : m.wf = true) (h : m.write a b = .ok m')
    (c : Nat) : m'.read c = if c = a then some b else m.read c := by
  obtain ⟨bs, rfl⟩ := Memory.exists_ofBytes hm
  have ha : a < bs.length := by simpa using (Memory.write_ok h).1
  obtain rfl : Memory.ofBytes (bs.set a b) = m' := by simpa [Memory.write_ofBytes b ha] using h
  simp only [Memory.read_ofBytes, List.getElem?_set, ha, if_true, eq_comm (a := a)]

/-- Settles O56. -/
theorem memoryReadsWhatWasWritten : Obligations.MemoryReadsWhatWasWritten :=
  fun m _ _ b hm => ⟨fun h => ⟨Memory.length_write h, Memory.read_write hm h⟩, Memory.length_grow m b,
    Memory.read_grow hm b⟩

/-! ### The load and store primitives -/

/-- After bytes are written from `a` on, they are read there, and every other byte is as before. -/
theorem Memory.read_writeBytes {bs : List Byte} {m m' : Memory} {a : Nat} (hm : m.wf = true)
    (h : m.writeBytes a bs = .ok m') (c : Nat) :
    m'.read c = if a ≤ c ∧ c < a + bs.length then bs[c - a]? else m.read c := by
  induction bs generalizing m a with
  | nil =>
    obtain rfl : m = m' := by simpa [Memory.writeBytes] using h
    simp [show ¬(a ≤ c ∧ c < a) by omega]
  | cons b bs ih =>
    cases hw : m.write a b with
    | error r => simp [Memory.writeBytes, hw] at h
    | ok m₁ =>
      have hrest : m₁.writeBytes (a + 1) bs = .ok m' := by simpa [Memory.writeBytes, hw] using h
      rw [ih (Memory.wf_write hm hw) hrest, Memory.read_write hm hw, List.length_cons]
      obtain hc | rfl | hc := Nat.lt_trichotomy c a
      · rw [if_neg (by omega), if_neg (by omega), if_neg (by omega)]
      · simp
      · obtain ⟨d, rfl⟩ : ∃ d, c = a + 1 + d := ⟨c - (a + 1), by omega⟩
        rw [if_neg hc.ne', Nat.add_sub_cancel_left, show a + 1 + d - a = d + 1 by omega, List.getElem?_cons_succ]
        exact if_congr (by omega) rfl rfl

theorem Memory.readBytes_of_read {m : Memory} {bs : List Byte} {a : Nat}
    (h : ∀ k (hk : k < bs.length), m.read (a + k) = some bs[k]) : m.readBytes a bs.length = .ok bs := by
  induction bs generalizing a with
  | nil => rfl
  | cons b bs ih =>
    have hb : m.read a = some b := h 0 (by simp)
    have hbs : m.readBytes (a + 1) bs.length = .ok bs := by
      refine ih fun k hk => ?_
      rw [Nat.add_right_comm]
      exact h (k + 1) (Nat.succ_lt_succ hk)
    simp [Memory.readBytes, hb, hbs]

@[simp] theorem length_littleEndianBytes (n v : Nat) : (littleEndianBytes n v).length = n := by
  induction n generalizing v with
  | zero => rfl
  | succ n ih => simp [littleEndianBytes, ih]

@[simp] theorem length_orderBytes (order : Config.ByteOrder) (bs : List Byte) :
    (orderBytes order bs).length = bs.length := by
  cases order <;> simp [orderBytes]

/-- Ordering twice under one byte order gives the bytes back. -/
@[simp] theorem orderBytes_orderBytes (order : Config.ByteOrder) (bs : List Byte) :
    orderBytes order (orderBytes order bs) = bs := by
  cases order <;> simp [orderBytes]

/-- The `n` bytes of a value have the value modulo 256^n. -/
theorem littleEndianValue_bytes (n v : Nat) : littleEndianValue (littleEndianBytes n v) = v % 256 ^ n := by
  induction n generalizing v with
  | zero => simp [littleEndianBytes, littleEndianValue, Nat.mod_one]
  | succ n ih =>
    rw [littleEndianBytes, littleEndianValue, ih, BitVec.toNat_ofNat, Nat.pow_succ' (m := 256)]
    exact Nat.mod_mul.symm

/-- Settles O57: the bytes stored are the bytes loaded, and ordering them is undone by ordering them again. -/
theorem memReadAfterMemWrite : Obligations.MemReadAfterMemWrite := by
  intro p m m' addr n v hm h
  obtain ⟨hfit, hwrite⟩ := memWrite_ok h
  have hread := Memory.read_writeBytes hm hwrite
  simp only [length_orderBytes, length_littleEndianBytes] at hread
  refine ⟨?_, fun c hc => by rw [hread, if_neg (by omega)]⟩
  have hbytes : m'.readBytes addr n = .ok (orderBytes p.byteOrder (littleEndianBytes n v)) := by
    have := Memory.readBytes_of_read (m := m') (a := addr) (bs := orderBytes p.byteOrder (littleEndianBytes n v))
    simp only [length_orderBytes, length_littleEndianBytes] at this
    refine this fun k hk => ?_
    rw [hread, if_pos (by omega), Nat.add_sub_cancel_left, List.getElem?_eq_getElem (by simpa)]
  rw [memRead, if_pos hfit, hbytes]
  simp [littleEndianValue_bytes]

end Sys2Proof.Machine
end

section
/-!
One step of the block, by the event it serves: reset, idling, the host's memory accesses, and the meanings.
-/

namespace Sys2Proof.Machine

/-! ### The step, by the event it serves -/

theorem step_idle {s : State} (h : s.inputs = []) : step s = .next s := by
  simp [step, serveNext, h]

theorem step_reset {s : State} {rest : List Input} (h : s.inputs = .reset :: rest) :
    step s = .next (State.applyReset { s with inputs := rest }) := by
  simp [step, serveNext, h]

theorem step_memGrow {s : State} {b : Byte} {rest : List Input} (h : s.inputs = .memGrow b :: rest) :
    step s = .next { s with inputs := rest, mem := s.mem.grow b } := by
  simp [step, serveNext, h]

theorem step_memStore_ok {s : State} {a : Nat} {b : Byte} {rest : List Input} {m : Memory}
    (h : s.inputs = .memStore a b :: rest) (hw : s.mem.write a b = .ok m) :
    step s = .next { s with inputs := rest, mem := m } := by
  simp [step, serveNext, h, hw]

theorem step_memStore_error {s : State} {a : Nat} {b : Byte} {rest : List Input} {r : Refusal}
    (h : s.inputs = .memStore a b :: rest) (hw : s.mem.write a b = .error r) : step s = .refused r := by
  simp [step, serveNext, h, hw]

/-- Settles O2. -/
theorem resetEventRestoresCpuOnly : Obligations.ResetEventRestoresCpuOnly :=
  fun _ _ h => ⟨_, step_reset h, rfl, Cpu.readReg_reset, fun _ => rfl, rfl, rfl, rfl, rfl⟩

/-- Settles O3. -/
theorem idleStepChangesNothing : Obligations.IdleStepChangesNothing :=
  fun _ => step_idle

/-- Settles O4: the store's laws, carried to the step that serves the event. -/
theorem hostMemoryAccessLeavesCpu : Obligations.HostMemoryAccessLeavesCpu := by
  intro s rest b hm
  refine ⟨fun h => ⟨_, step_memGrow h, rfl, rfl, rfl, rfl, Memory.length_grow _ b, ?_, fun a ha => ?_⟩,
    fun a h ha => ⟨_, step_memStore_ok h (Memory.write_of_lt b ha), rfl, rfl, rfl, rfl, ?_, ?_, fun c hc => ?_⟩,
    fun a h ha => step_memStore_error h (Memory.write_of_le b ha)⟩
  · rw [Memory.read_grow hm, if_pos rfl]
  · rw [Memory.read_grow hm, if_neg ha]
  · exact Memory.length_write (Memory.write_of_lt b ha)
  · rw [Memory.read_write hm (Memory.write_of_lt b ha), if_pos rfl]
  · rw [Memory.read_write hm (Memory.write_of_lt b ha), if_neg hc]

end Sys2Proof.Machine
end

section
/-!
The meanings and one request of the default table, from the raw word: result, frame and response.
-/

namespace Sys2Proof

open Machine

/-! ### The meanings (rules R130 to R133) -/

/-- The value an instruction writes into its register, from the CPU state it runs on. -/
def Instr.result : Instr → Cpu → Word
  | .auipc _ immU, c => add32 c.pc immU
  | .add _ src1 src2, c => add32 (c.readReg src1) (c.readReg src2)
  | .addi _ src1 immI, c => add32 (c.readReg src1) immI

theorem Machine.exec_eq (i : Instr) (s : State) : exec i s = .next (s.writeReg i.rd (i.result s.cpu)) := by
  cases i <;> rfl

theorem Machine.sameButReg_writeReg (s : State) (rd : RegIdx) (v : Word) : SameButReg rd s (s.writeReg rd v) where
  regs _ h := State.readReg_writeReg_ne s v h
  pc := rfl
  mem _ := rfl
  memLength := rfl
  inputs := rfl
  rsp := rfl
  log := rfl

/-- Every meaning completes, writes its result and changes nothing else. -/
theorem Machine.exec_completes (i : Instr) (s : State) :
    ∃ t, exec i s = .next t ∧ t.readReg i.rd = i.result s.cpu ∧ SameButReg i.rd s t :=
  ⟨_, exec_eq i s, State.readReg_writeReg_same s _ _, sameButReg_writeReg s _ _⟩

/-- Settles O5. -/
theorem auipcWritesPcPlusImmediate : Obligations.AuipcWritesPcPlusImmediate := by
  intro s rd immU
  obtain ⟨t, hexec, hrd, hframe⟩ := exec_completes (.auipc rd immU) s
  exact ⟨t, hexec, (congrArg BitVec.toNat hrd).trans (add32_toNat _ _), hframe⟩

/-- Settles O6. -/
theorem addWritesRegisterSum : Obligations.AddWritesRegisterSum := by
  intro s rd src1 src2
  obtain ⟨t, hexec, hrd, hframe⟩ := exec_completes (.add rd src1 src2) s
  exact ⟨t, hexec, (congrArg BitVec.toNat hrd).trans (add32_toNat _ _), hframe⟩

/-- Settles O7. -/
theorem addiWritesRegisterPlusImmediate : Obligations.AddiWritesRegisterPlusImmediate := by
  intro s rd src1 immI
  obtain ⟨t, hexec, hrd, hframe⟩ := exec_completes (.addi rd src1 immI) s
  exact ⟨t, hexec, (congrArg BitVec.toNat hrd).trans (add32_toNat _ _), hframe⟩

/-! ### One request (rules R102 to R108) -/

/-- The state a request's action runs on: the request is taken, the pc advanced. -/
def Machine.State.atAction (s : State) (rest : List Input) : State := State.advancePc { s with inputs := rest }

theorem Machine.State.atAction_cpu (s : State) (rest : List Input) :
    (s.atAction rest).cpu = s.cpu.writePc (add32 s.cpu.pc 4#32) := rfl

theorem Machine.State.atAction_eq (s : State) (rest : List Input) :
    s.atAction rest = { s with inputs := rest, cpu := { s.cpu with pc := s.cpu.pc + 4#32 } } := by
  rw [← add32_eq]
  rfl

theorem Machine.step_of_decode_ok {s : State} {w : Word} {rest : List Input} {i : Instr}
    (h : s.inputs = .request w :: rest) (hd : decode w = .ok i) :
    step s = .next (((s.atAction rest).writeReg i.rd (i.result (s.atAction rest).cpu)).respond .ok) := by
  rw [step, serveNext_request h, serveRequest, selectDecoded_ok hd]
  simp only [exec_eq]
  rfl

theorem Machine.step_of_decode_error {s : State} {w : Word} {rest : List Input} {e : DecodeError}
    (h : s.inputs = .request w :: rest) (hd : decode w = .error e) :
    step s = .next ((s.atAction rest).respond (.unrecognized w)) := by
  rw [step, serveNext_request h, serveRequest, selectDecoded_error hd]
  rfl

/-- Settles O8. -/
theorem stepRunsDecodedInstruction : Obligations.StepRunsDecodedInstruction := by
  intro s w rest i h hd
  rw [← State.atAction_eq, exec_eq]
  refine ⟨⟨_, rfl⟩, fun t ht => ?_⟩
  rw [step_of_decode_ok h hd]
  obtain rfl := Host.Outcome.next.inj ht
  rfl

/-- A response given on a state that differs from the one the action saw in registers only. -/
theorem Machine.requestDone_respond {s : State} {rest : List Input} {cpu : Cpu} (r : Response)
    (hpc : cpu.pc = (s.atAction rest).cpu.pc) :
    RequestDone rest r s (State.respond r { s.atAction rest with cpu := cpu }) where
  pc := by
    rw [State.respond_cpu, hpc, State.atAction_cpu, Cpu.writePc_pc, add32_toNat]
    rfl
  mem _ := rfl
  memLength := rfl
  inputs := rfl
  rsp := rfl
  log := rfl

/-- A request the decoder reads: the destination gets the instruction's result, every other register stays. -/
theorem Machine.recognized_request {s : State} {w : Word} {rest : List Input} {i : Instr}
    (h : s.inputs = .request w :: rest) (hd : decode w = .ok i) :
    ∃ t, step s = .next t ∧ t.readReg i.rd = i.result (s.atAction rest).cpu ∧
      (∀ j, j ≠ i.rd → t.readReg j = s.readReg j) ∧ RequestDone rest .ok s t :=
  ⟨_, step_of_decode_ok h hd, State.readReg_writeReg_same _ _ _, fun _ hj => State.readReg_writeReg_ne _ _ hj,
    requestDone_respond .ok (Cpu.writeReg_pc _ _ _)⟩

/-- A request the decoder does not read: every register stays, and the response carries the word. -/
theorem Machine.unrecognized_request {s : State} {w : Word} {rest : List Input} {e : DecodeError}
    (h : s.inputs = .request w :: rest) (hd : decode w = .error e) :
    ∃ t, step s = .next t ∧ (∀ j, t.readReg j = s.readReg j) ∧ RequestDone rest (.unrecognized w) s t :=
  ⟨_, step_of_decode_error h hd, fun _ => rfl, requestDone_respond (.unrecognized w) rfl⟩

theorem rdOf_eq_of_bits {w : Word} {d : RegIdx} (h : bits w 7 11 = .ok d.toNat) : rdOf w = d := by
  rw [bits_rdOf, Except.ok.injEq] at h
  exact BitVec.eq_of_toNat_eq h

theorem src1Of_eq_of_bits {w : Word} {r : RegIdx} (h : bits w 15 19 = .ok r.toNat) : src1Of w = r := by
  rw [bits_src1Of, Except.ok.injEq] at h
  exact BitVec.eq_of_toNat_eq h

theorem src2Of_eq_of_bits {w : Word} {r : RegIdx} (h : bits w 20 24 = .ok r.toNat) : src2Of w = r := by
  rw [bits_src2Of, Except.ok.injEq] at h
  exact BitVec.eq_of_toNat_eq h

/-- A word of another opcode is no `auipc` word. -/
theorem hitsAuipc_false_of_opcode {w : Word} {op : Nat} (h : bits w 0 6 = .ok op) (hop : op ≠ 0x17) :
    hitsAuipc w = false := by
  rw [← Bool.not_eq_true, hitsAuipc_iff, h]
  simpa using hop

theorem hitsAdd_false_of_opcode {w : Word} {op : Nat} (h : bits w 0 6 = .ok op) (hop : op ≠ 0x33) :
    hitsAdd w = false := by
  rw [← Bool.not_eq_true, hitsAdd_iff, h]
  simp [hop]

/-- Settles O9. -/
theorem auipcWordRequest : Obligations.AuipcWordRequest := by
  intro s w rest d u h hop hd hu
  obtain rfl := rdOf_eq_of_bits hd
  obtain ⟨t, hstep, hrd, hregs, hdone⟩ := recognized_request h (decode_of_hitsAuipc ((hitsAuipc_iff w).mpr hop))
  refine ⟨t, hstep, ?_, hregs, hdone⟩
  have huv : w.toNat / 4096 = u := by simpa [bits_upper] using hu
  rw [show t.readReg (rdOf w) = add32 (add32 s.cpu.pc 4#32) (immUOf w) from hrd, add32_toNat, add32_toNat, toNat_immUOf,
    huv, Nat.mod_add_mod]
  rfl

/-- Settles O10: the other clause is rule R83's condition on the unrecognized words. -/
theorem addWordRequest : Obligations.AddWordRequest := by
  refine ⟨fun s w rest d s1 s2 h hop hf3 hf7 hd h1 h2 => ?_, fun s w rest h hop hf => ?_⟩
  · obtain rfl := rdOf_eq_of_bits hd
    obtain rfl := src1Of_eq_of_bits h1
    obtain rfl := src2Of_eq_of_bits h2
    have hdec := decode_of_hitsAdd (hitsAuipc_false_of_opcode hop (by decide)) ((hitsAdd_iff w).mpr ⟨hop, hf3, hf7⟩)
    obtain ⟨t, hstep, hrd, hregs, hdone⟩ := recognized_request h hdec
    exact ⟨t, hstep, (congrArg BitVec.toNat hrd).trans (add32_toNat _ _), hregs, hdone⟩
  · exact unrecognized_request h ((unrecognizedWordsByField w).mpr ⟨by simp [hop], fun _ => hf, by simp [hop]⟩)

/-- Settles O11: the other clause is rule R83's condition on the unrecognized words. -/
theorem addiWordRequest : Obligations.AddiWordRequest := by
  refine ⟨fun s w rest d s1 v h hop hf3 hd h1 hv => ?_, fun s w rest h hop hf => ?_⟩
  · obtain rfl := rdOf_eq_of_bits hd
    obtain rfl := src1Of_eq_of_bits h1
    obtain rfl : (immIOf w).toNat = v := by simpa [bits_immIOf] using hv
    have hdec := decode_of_hitsAddi (hitsAuipc_false_of_opcode hop (by decide))
      (hitsAdd_false_of_opcode hop (by decide)) ((hitsAddi_iff w).mpr ⟨hop, hf3⟩)
    obtain ⟨t, hstep, hrd, hregs, hdone⟩ := recognized_request h hdec
    exact ⟨toNat_immIOf_le w, t, hstep, (congrArg BitVec.toNat hrd).trans (add32_toNat _ _), hregs, hdone⟩
  · exact unrecognized_request h ((unrecognizedWordsByField w).mpr ⟨by simp [hop], by simp [hop], fun _ => hf⟩)

/-! ### The response port (rule R100) -/

theorem Machine.rspStatus_of_ok {t : State} (h : t.rsp = some .ok) : t.rspStatus = some 0#1 := by
  simp [State.rspStatus, h]

theorem Machine.rspWord_of_ok {t : State} (h : t.rsp = some .ok) : t.rspWord = none := by
  simp [State.rspWord, h]

theorem Machine.rspStatus_of_unrecognized {t : State} {w : Word} (h : t.rsp = some (.unrecognized w)) :
    t.rspStatus = some 1#1 := by
  simp [State.rspStatus, h]

theorem Machine.rspWord_of_unrecognized {t : State} {w : Word} (h : t.rsp = some (.unrecognized w)) :
    t.rspWord = some w := by
  simp [State.rspWord, h]

/-- Settles O12. -/
theorem unrecognizedWordRequest : Obligations.UnrecognizedWordRequest := by
  intro s w rest h hauipc hadd haddi
  have hd : decode w = .error (.unrecognizedInstruction w) := (decode_eq_error_iff w).mpr
    ⟨beq_eq_false_iff_ne.mpr hauipc, beq_eq_false_iff_ne.mpr hadd, beq_eq_false_iff_ne.mpr haddi⟩
  obtain ⟨t, hstep, hregs, hdone⟩ := unrecognized_request h hd
  exact ⟨t, hstep, hregs, hdone, rspStatus_of_unrecognized hdone.rsp, rspWord_of_unrecognized hdone.rsp⟩

/-- Settles O13: by what the decoder answers. -/
theorem everyRequestCompletes : Obligations.EveryRequestCompletes := by
  intro s w rest h
  cases hd : decode w with
  | ok i =>
    obtain ⟨t, hstep, -, -, hdone⟩ := recognized_request h hd
    exact ⟨t, hstep, .inl ⟨⟨i, rfl⟩, hdone.rsp, rspStatus_of_ok hdone.rsp, rspWord_of_ok hdone.rsp⟩⟩
  | error e =>
    obtain ⟨t, hstep, -, hdone⟩ := unrecognized_request h hd
    exact ⟨t, hstep, .inr ⟨fun _ => nofun, hdone.rsp, rspStatus_of_unrecognized hdone.rsp,
      rspWord_of_unrecognized hdone.rsp⟩⟩

/-- Settles O14. -/
theorem pcRelativeValuesCountFromNextWord : Obligations.PcRelativeValuesCountFromNextWord := by
  intro s rd immU hwf
  have hd : decode (encode (.auipc rd immU)) = .ok (.auipc rd immU) := decode_encode hwf
  refine ⟨_, step_of_decode_ok rfl hd, ?_, ?_⟩
  · rw [State.readReg_respond, Instr.rd, State.readReg_writeReg_same]
    simp [Instr.result, add32_eq, State.atAction_cpu]
  · simp [State.atAction_cpu, add32_eq]

/-! ### The accessors (rule R115) -/

/-- Settles O54. -/
theorem accessorsReadPcAndRegisters : Obligations.AccessorsReadPcAndRegisters :=
  fun _ => ⟨rfl, fun i => dif_pos i.isLt, fun _ hn => dif_neg (Nat.not_lt.mpr hn)⟩

end Sys2Proof
end

section
/-!
Rules of the whole machine: what stops it, what changes the CPU state, what a request does not depend on, and runs of
requests.
-/

namespace Sys2Proof

open Machine

/-! ### What stops the block, and what changes the CPU state -/

theorem Machine.step_request_answers {s : State} {w : Word} {rest : List Input} (h : s.inputs = .request w :: rest) :
    ∃ t, step s = .next t := by
  obtain ⟨t, hstep, -⟩ := everyRequestCompletes s w rest h
  exact ⟨t, hstep⟩

/-- Settles O15: by the event served. -/
theorem onlyHostStoreBeyondLengthStops : Obligations.OnlyHostStoreBeyondLengthStops := by
  intro s
  match h : s.inputs with
  | [] => exact .inl ⟨s, step_idle h⟩
  | .request w :: rest => exact .inl (step_request_answers h)
  | .reset :: rest => exact .inl ⟨_, step_reset h⟩
  | .memGrow b :: rest => exact .inl ⟨_, step_memGrow h⟩
  | .memStore a b :: rest =>
    by_cases ha : a < s.mem.length
    · exact .inl ⟨_, step_memStore_ok h (Memory.write_of_lt b ha)⟩
    · have hle : s.mem.length ≤ a := Nat.le_of_not_lt ha
      have hstep := step_memStore_error h (Memory.write_of_le b hle)
      refine .inr ⟨a, b, rest, rfl, hle, hstep, ?_⟩
      rintro ⟨t, ht⟩
      rw [hstep] at ht
      cases ht

/-- The destination of what the decoder reads is the word's field (rule R70). -/
theorem rd_of_decode {w : Word} {i : Instr} (h : decode w = .ok i) : i.rd = rdOf w := by
  rw [← rdOf_encode, encode_of_decode h]

theorem Machine.readReg_of_request {s t : State} {w : Word} {rest : List Input} (h : s.inputs = .request w :: rest)
    (ht : step s = .next t) {j : RegIdx} (hj : t.readReg j ≠ s.readReg j) :
    ∃ i, decode w = .ok i ∧ j = i.rd := by
  cases hd : decode w with
  | ok i =>
    obtain ⟨u, hu, -, hregs, -⟩ := recognized_request h hd
    obtain rfl : u = t := Host.Outcome.next.inj (hu.symm.trans ht)
    exact ⟨i, rfl, by_contra fun hne => hj (hregs j hne)⟩
  | error e =>
    obtain ⟨u, hu, hregs, -⟩ := unrecognized_request h hd
    obtain rfl : u = t := Host.Outcome.next.inj (hu.symm.trans ht)
    exact absurd (hregs j) hj

/-- Settles O17: by the event served; only a request and a reset touch the CPU state. -/
theorem onlyRequestsAndResetChangeCpu : Obligations.OnlyRequestsAndResetChangeCpu := by
  intro s t ht
  obtain ⟨-, rfl⟩ | ⟨w, rest, h, -⟩ | ⟨rest, h, -⟩ | ⟨b, rest, -, rfl⟩ | ⟨a, b, rest, m, -, -, rfl⟩ :=
    serveNext_next ht
  case inl => exact ⟨fun hpc => absurd rfl hpc, fun j hj => absurd rfl hj⟩
  case inr.inl =>
    refine ⟨fun _ => .inl ⟨w, rest, h⟩, fun j hj => .inl ?_⟩
    obtain ⟨i, hd, rfl⟩ := readReg_of_request h ht hj
    exact ⟨w, rest, i, h, hd, rd_of_decode hd ▸ bits_rdOf w⟩
  case inr.inr.inl => exact ⟨fun _ => .inr ⟨rest, h⟩, fun _ _ => .inr ⟨rest, h⟩⟩
  case inr.inr.inr.inl => exact ⟨fun hpc => absurd rfl hpc, fun j hj => absurd rfl hj⟩
  case inr.inr.inr.inr => exact ⟨fun hpc => absurd rfl hpc, fun j hj => absurd rfl hj⟩

/-- The increment of the pc as the statements write it. -/
theorem Machine.add32_four (pc : Word) : add32 pc 4#32 = BitVec.ofNat 32 (pc.toNat + 4) := by
  apply BitVec.eq_of_toNat_eq
  rw [add32_toNat, BitVec.toNat_ofNat]
  rfl

theorem Machine.toNat_add32_four (pc : Word) : (add32 pc 4#32).toNat = (pc.toNat + 4) % 2 ^ 32 :=
  add32_toNat pc 4#32

/-- What a completed request of the controller with the table `T` was: unmatched, or its entry's action read within the
store and left the CPU state that the response is given on. -/
theorem Machine.decodeAndExecuteWith_next {T : Table} {w : Word} {s t : State}
    (h : decodeAndExecuteWith T w s = .next t) :
    (T.firstMatch w = none ∧ t = s.advancePc.respond (.unrecognized w)) ∨
    ∃ e cpu, T.firstMatch w = some e ∧ (e.action s.advancePc.cpu w).perform s.mem = .ok (cpu, none) ∧
      cpu.pc = add32 s.cpu.pc 4#32 ∧ t = State.respond .ok { s with cpu := cpu } := by
  obtain ⟨hnone, rfl⟩ | ⟨action, u, hsome, hact, rfl⟩ := serveRequest_next h
  · cases hm : T.firstMatch w with
    | none => exact .inl ⟨rfl, rfl⟩
    | some e => simp [selectFirstMatch_some hm] at hnone
  · cases hm : T.firstMatch w with
    | none => simp [selectFirstMatch_none hm] at hsome
    | some e =>
      obtain rfl : runAction e.action w = action := by simpa [selectFirstMatch_some hm] using hsome
      obtain ⟨cpu, hperf, hpc, rfl⟩ := runAction_next hact
      exact .inr ⟨e, cpu, rfl, hperf, hpc, rfl⟩

theorem Machine.stepWith_request {T : Table} {s : State} {w : Word} {rest : List Input}
    (h : s.inputs = .request w :: rest) : stepWith T s = decodeAndExecuteWith T w { s with inputs := rest } :=
  serveNext_request h

/-- Settles O16. -/
theorem everyRequestAdvancesPc : Obligations.EveryRequestAdvancesPc := by
  intro s w rest h
  refine ⟨fun T t ht => ?_, ?_⟩
  · rw [stepWith_request h] at ht
    obtain ⟨hm, rfl⟩ | ⟨e, cpu, hm, hperf, hpc, rfl⟩ := decodeAndExecuteWith_next ht
    · exact ⟨toNat_add32_four s.cpu.pc, by simp [hm]⟩
    · refine ⟨by rw [State.respond_cpu, hpc, toNat_add32_four], fun e' he' => ?_⟩
      obtain rfl : e = e' := by simpa [hm] using he'
      rw [← add32_four]
      exact hperf
  · obtain ⟨t, ht⟩ := step_request_answers h
    obtain ⟨cpu, r, hpc, rfl⟩ :=
      serveRequest_responds selectDecoded_writesRegistersOnly ((serveNext_request h).symm.trans ht)
    exact ⟨_, ht, by rw [State.respond_cpu, hpc, toNat_add32_four]⟩

/-! ### What a request does not depend on -/

/-- A request's registers, pc and response are the same whatever the store, the port and the record hold, and it leaves
the store alone. -/
theorem Machine.step_request_uniform {s : State} {w : Word} {rest : List Input} (h : s.inputs = .request w :: rest) :
    ∃ (cpu : Cpu) (r : Response), ∀ (m : Memory) (p : Option Response) (l : List Response),
      step { s with mem := m, rsp := p, log := l } =
        .next { cpu := cpu, mem := m, inputs := rest, rsp := some r, log := r :: l } := by
  cases hd : decode w with
  | ok i =>
    exact ⟨(s.atAction rest).cpu.writeReg i.rd (i.result (s.atAction rest).cpu), .ok, fun m p l =>
      step_of_decode_ok (s := { s with mem := m, rsp := p, log := l }) h hd⟩
  | error e =>
    exact ⟨(s.atAction rest).cpu, .unrecognized w, fun m p l =>
      step_of_decode_error (s := { s with mem := m, rsp := p, log := l }) h hd⟩

/-- Settles O18. -/
theorem requestsIgnoreMemory : Obligations.RequestsIgnoreMemory := by
  intro s w rest h
  obtain ⟨cpu, r, hstep⟩ := step_request_uniform h
  exact ⟨_, hstep s.mem s.rsp s.log, rfl, fun m => hstep m s.rsp s.log⟩

/-- Settles O19: by the event served. -/
theorem pastResponsesDoNotMatter : Obligations.PastResponsesDoNotMatter := by
  intro s t p l ht
  obtain ⟨h, rfl⟩ | ⟨w, rest, h, -⟩ | ⟨rest, h, rfl⟩ | ⟨b, rest, h, rfl⟩ | ⟨a, b, rest, m, h, hwrite, rfl⟩ :=
    serveNext_next ht
  case inl => exact ⟨_, step_idle h, rfl, rfl, rfl, by simp [h]⟩
  case inr.inl =>
    obtain ⟨cpu, r, hstep⟩ := step_request_uniform h
    obtain rfl := Host.Outcome.next.inj ((hstep s.mem s.rsp s.log).symm.trans ht)
    exact ⟨_, hstep s.mem p l, rfl, rfl, rfl, fun _ _ _ => rfl⟩
  case inr.inr.inl => exact ⟨_, step_reset h, rfl, rfl, rfl, by simp [h]⟩
  case inr.inr.inr.inl => exact ⟨_, step_memGrow h, rfl, rfl, rfl, by simp [h]⟩
  case inr.inr.inr.inr => exact ⟨_, step_memStore_ok h hwrite, rfl, rfl, rfl, by simp [h]⟩

/-! ### Runs of requests (rules R27, D12) -/

/-- The response to a request for `w` with the default table. -/
def Machine.responseTo (w : Word) : Response :=
  if decode w = .error (.unrecognizedInstruction w) then Response.unrecognized w else Response.ok

theorem Machine.responseTo_eq_ok_iff (w : Word) : responseTo w = .ok ↔ ∃ i, decode w = .ok i := by
  cases hd : decode w with
  | ok i => simp [responseTo, hd]
  | error e => simp [responseTo, hd, decode_error hd]

theorem Machine.step_request {s : State} {w : Word} {rest : List Input} (h : s.inputs = .request w :: rest) :
    ∃ t, step s = .next t ∧ t.mem = s.mem ∧ RequestDone rest (responseTo w) s t := by
  cases hd : decode w with
  | ok i =>
    rw [(responseTo_eq_ok_iff w).mpr ⟨i, hd⟩]
    exact ⟨_, step_of_decode_ok h hd, rfl, requestDone_respond .ok (Cpu.writeReg_pc _ _ _)⟩
  | error e =>
    rw [responseTo, if_pos (hd.trans (congrArg _ (decode_error hd)))]
    exact ⟨_, step_of_decode_error h hd, rfl, requestDone_respond (.unrecognized w) rfl⟩

/-- A run of requests: each advances the pc once and records its response. -/
theorem Machine.run_requests (ws : List Word) {s : State} {rest : List Input}
    (h : s.inputs = ws.map Input.request ++ rest) :
    ∃ t, Sys2Proof.core.run ws.length s = .next t ∧ t.cpu.pc.toNat = (s.cpu.pc.toNat + 4 * ws.length) % 2 ^ 32 ∧
      t.inputs = rest ∧ t.mem = s.mem ∧ t.log = (ws.map responseTo).reverse ++ s.log := by
  induction ws generalizing s with
  | nil => exact ⟨s, rfl, (Nat.mod_eq_of_lt s.cpu.pc.isLt).symm, h, rfl, rfl⟩
  | cons w ws ih =>
    obtain ⟨u, hstep, hmem, hdone⟩ := step_request h
    obtain ⟨t, hrun, hpc, hinputs, hmem', hlog⟩ := ih hdone.inputs
    refine ⟨t, (core_run_succ hstep).trans hrun, ?_, hinputs, hmem'.trans hmem, ?_⟩
    · rw [hpc, hdone.pc, List.length_cons]
      omega
    · simp [hlog, hdone.log]

/-- Settles O22. -/
theorem pcCountsRequests : Obligations.PcCountsRequests := by
  intro ws s rest h
  obtain ⟨t, hrun, hpc, hinputs, hmem, hlog⟩ := run_requests ws h
  refine ⟨t, hrun, hpc, hinputs, hmem, ?_, fun hreset => ?_⟩
  · simp [hlog, Nat.add_comm]
  · simpa [hreset] using hpc

/-- Settles O23. -/
theorem runRecordsEveryResponse : Obligations.RunRecordsEveryResponse := by
  intro ws s rest h
  obtain ⟨t, hrun, -, -, -, hlog⟩ := run_requests ws h
  refine ⟨t, hrun, hlog, fun hs => ?_⟩
  have hok : t.noUnrecognized ↔ (∀ w ∈ ws, responseTo w = .ok) ∧ s.noUnrecognized := by
    simp [State.noUnrecognized, hlog, or_imp, forall_and]
  simpa only [responseTo_eq_ok_iff, hs, and_true] using hok

/-! ### Reaching any register value (rule R116) -/

theorem Machine.run_two {s t u : State} (h₁ : step s = .next t) (h₂ : step t = .next u) :
    Sys2Proof.core.run 2 s = .next u := by
  rw [core_run_succ h₁, core_run_succ h₂]
  rfl

/-- A value cut into a U-type and an I-type immediate. -/
theorem upper_add_lower (v : Word) : (v &&& 0xFFFFF000#32) + (v &&& 0x00000FFF#32) = v := by
  have := v.isLt
  rw [← BitVec.toNat_inj, BitVec.toNat_add, toNat_and_upper, toNat_and_lower]
  omega

theorem immUWellFormed_upper (v : Word) : immUWellFormed (v &&& 0xFFFFF000#32) = true :=
  immUWellFormed_immUOf v

theorem immIWellFormed_lower (v : Word) : immIWellFormed (v &&& 0x00000FFF#32) = true := by
  rw [immIWellFormed_iff, toNat_and_lower]
  exact Nat.mod_lt _ (by decide)

/-- `auipc` and `addi` with the two parts of `d` put the following word's address plus `d` into a register. -/
theorem Machine.run_auipc_addi (s : State) (r : RegIdx) (d : Word) :
    ∃ t, Sys2Proof.core.run 2 ((s.withRequest (encode (.addi r r (d &&& 0x00000FFF#32)))).withRequest
        (encode (.auipc r (d &&& 0xFFFFF000#32)))) = .next t ∧
      t.readReg r = s.cpu.pc + 4#32 + d ∧ ∀ j, j ≠ r → t.readReg j = s.readReg j := by
  obtain ⟨t, hstep₁, hr₁, hregs₁, hdone₁⟩ := recognized_request (State.withRequest_inputs _ _)
    (decode_encode (i := .auipc r (d &&& 0xFFFFF000#32)) (immUWellFormed_upper d))
  obtain ⟨u, hstep₂, hr₂, hregs₂, -⟩ := recognized_request (hdone₁.inputs.trans (State.withRequest_inputs s _))
    (decode_encode (i := .addi r r (d &&& 0x00000FFF#32)) (immIWellFormed_lower d))
  refine ⟨u, run_two hstep₁ hstep₂, ?_, fun j hj => (hregs₂ j hj).trans (hregs₁ j hj)⟩
  calc u.readReg r
      = add32 (t.readReg r) (d &&& 0x00000FFF#32) := hr₂
    _ = add32 (add32 (add32 s.cpu.pc 4#32) (d &&& 0xFFFFF000#32)) (d &&& 0x00000FFF#32) :=
        congrArg (add32 · _) hr₁
    _ = s.cpu.pc + 4#32 + d := by rw [add32_eq, add32_eq, add32_eq, BitVec.add_assoc, upper_add_lower]

/-- Settles O24: the immediates are the two parts of the value's distance from the address after the `auipc` word. -/
theorem twoRequestsReachAnyRegisterValue : Obligations.TwoRequestsReachAnyRegisterValue := by
  intro s r v
  obtain ⟨t, hrun, hr, hregs⟩ := run_auipc_addi s r (v - (s.cpu.pc + 4#32))
  exact ⟨_, _, immUWellFormed_upper _, immIWellFormed_lower _, t, hrun, hr.trans (add_sub_cancel _ _), hregs⟩

end Sys2Proof
end

section
/-!
The controller with any table: first match, the decoder's signals, appending, building, the rules on actions, the phases,
booting and several blocks (rules R80, R85, R104 to R113, R172, R184).
-/

namespace Sys2Proof.Machine

/-! ### First match and the decoder's signals (rules R85, R104) -/

theorem Table.firstMatch_eq_none_iff (T : Table) (w : Word) :
    T.firstMatch w = none ↔ ∀ e ∈ T.entries, wordMatches w e.pattern = false := by
  simp [Table.firstMatch]

theorem Table.sel_eq_none_iff (T : Table) (w : Word) :
    T.sel w = none ↔ ∀ e ∈ T.entries, wordMatches w e.pattern = false := by
  simp [Table.sel]

theorem Table.anyHit_eq_false_iff (T : Table) (w : Word) :
    T.anyHit w = false ↔ ∀ e ∈ T.entries, wordMatches w e.pattern = false := by
  simp [Table.anyHit, Table.hits]

theorem Table.anyHit_eq_true_iff (T : Table) (w : Word) :
    T.anyHit w = true ↔ ∃ k : Nat, (T.hits w)[k]? = some true := by
  simp [Table.anyHit, List.mem_iff_getElem?]

theorem Table.getElem?_hits (T : Table) (w : Word) (k : Nat) :
    (T.hits w)[k]? = T.entries[k]?.map (fun e => wordMatches w e.pattern) :=
  List.getElem?_map

theorem Table.sel_eq_some_iff (T : Table) (w : Word) (k : Nat) :
    T.sel w = some k ↔ (T.hits w)[k]? = some true ∧ ∀ j < k, (T.hits w)[j]? = some false := by
  rw [Table.sel, List.findIdx?_eq_some_iff_getElem]
  simp only [Table.getElem?_hits]
  constructor
  · rintro ⟨hk, hhit, hbefore⟩
    refine ⟨by rw [List.getElem?_eq_getElem hk, Option.map_some, hhit], fun j hj => ?_⟩
    rw [List.getElem?_eq_getElem (hj.trans hk), Option.map_some, Bool.eq_false_iff.mpr (hbefore j hj)]
  · rintro ⟨hhit, hbefore⟩
    obtain ⟨e, he, hw⟩ := Option.map_eq_some_iff.mp hhit
    obtain ⟨hk, rfl⟩ := List.getElem?_eq_some_iff.mp he
    refine ⟨hk, hw, fun j hj => ?_⟩
    have hmiss := hbefore j hj
    rw [List.getElem?_eq_getElem (hj.trans hk), Option.map_some, Option.some.injEq] at hmiss
    exact Bool.eq_false_iff.mp hmiss

/-- Settles O45. -/
theorem selIsTheLeastHit : Obligations.SelIsTheLeastHit :=
  fun T w => ⟨T.anyHit_eq_true_iff w, (T.anyHit_eq_false_iff w).trans (T.sel_eq_none_iff w).symm, T.sel_eq_some_iff w⟩

theorem Table.firstMatch_of_split {T : Table} {earlier later : List Entry} {e : Entry} {w : Word}
    (hT : T.entries = earlier ++ e :: later) (hearlier : ∀ e' ∈ earlier, wordMatches w e'.pattern = false)
    (he : wordMatches w e.pattern = true) : T.firstMatch w = some e := by
  rw [Table.firstMatch, List.find?_eq_some_iff_append]
  exact ⟨he, earlier, later, hT, by simpa using hearlier⟩

theorem Table.sel_of_split {T : Table} {earlier later : List Entry} {e : Entry} {w : Word}
    (hT : T.entries = earlier ++ e :: later) (hearlier : ∀ e' ∈ earlier, wordMatches w e'.pattern = false)
    (he : wordMatches w e.pattern = true) : T.sel w = some earlier.length := by
  rw [Table.sel, hT, List.findIdx?_append, List.findIdx?_eq_none_iff.mpr hearlier]
  simp [List.findIdx?_cons, he]

/-- A request tests the patterns up to the first that matches, or all of them. -/
theorem patternTests_eq (w : Word) (es : List Entry) :
    patternTests w es = (es.findIdx? (fun e => wordMatches w e.pattern)).elim es.length (· + 1) := by
  induction es with
  | nil => rfl
  | cons e es ih =>
    rw [patternTests, List.findIdx?_cons, ih]
    cases wordMatches w e.pattern
    · cases es.findIdx? (fun e => wordMatches w e.pattern) <;> rfl
    · rfl

theorem patternTests_of_sel {T : Table} {w : Word} {k : Nat} (h : T.sel w = some k) :
    patternTests w T.entries = k + 1 := by
  rw [patternTests_eq, show T.entries.findIdx? _ = some k from h]
  rfl

theorem patternTests_of_no_match {T : Table} {w : Word} (h : T.sel w = none) :
    patternTests w T.entries = T.entries.length := by
  rw [patternTests_eq, show T.entries.findIdx? _ = none from h]
  rfl

theorem Table.sel_lt {T : Table} {w : Word} {k : Nat} (h : T.sel w = some k) : k < T.entries.length :=
  (List.findIdx?_eq_some_iff_getElem.mp h).1

/-- Settles O50: by whether an entry is selected. -/
theorem patternTestsBounded : Obligations.PatternTestsBounded := by
  intro T w
  refine ⟨?_, fun h => patternTests_of_no_match ?_, fun k => patternTests_of_sel⟩
  · cases h : T.sel w with
    | none => exact (patternTests_of_no_match h).le
    | some k => exact (patternTests_of_sel h).trans_le (Table.sel_lt h)
  · exact (T.sel_eq_none_iff w).mpr ((T.anyHit_eq_false_iff w).mp h)

/-- Settles O42. -/
theorem firstMatchWins : Obligations.FirstMatchWins := by
  intro T earlier later e w s hT hearlier he
  have hsel := Table.sel_of_split hT hearlier he
  have hrun := decodeAndExecuteWith_of_match (s := s) (Table.firstMatch_of_split hT hearlier he)
  exact ⟨patternTests_of_sel hsel, hsel, fun t ht => by rw [hrun, ht], fun r hr => by rw [hrun, hr]⟩

/-! ### Unmatched requests and appended entries (rules R108, R113) -/

theorem decodeAndExecuteWith_of_no_match {T : Table} {w : Word} (h : T.firstMatch w = none) (s : State) :
    decodeAndExecuteWith T w s = .next (s.advancePc.respond (.unrecognized w)) := by
  rw [decodeAndExecuteWith, serveRequest, selectFirstMatch_none h]
  rfl

/-- Settles O43. -/
theorem unmatchedRequestReportsWord : Obligations.UnmatchedRequestReportsWord := by
  intro T w s rest h hno
  have hstep := (stepWith_request h).trans
    (decodeAndExecuteWith_of_no_match ((T.firstMatch_eq_none_iff w).mpr hno) _)
  exact ⟨_, hstep, fun _ => rfl, requestDone_respond (.unrecognized w) rfl, rfl, rfl⟩

theorem Table.firstMatch_append (T U : Table) (w : Word) :
    (T.append U).firstMatch w = (T.firstMatch w).or (U.firstMatch w) :=
  List.find?_append

/-- A request depends on the table through the entry selected only. -/
theorem decodeAndExecuteWith_congr {T U : Table} {w : Word} (h : T.firstMatch w = U.firstMatch w) (s : State) :
    decodeAndExecuteWith T w s = decodeAndExecuteWith U w s := by
  simp only [decodeAndExecuteWith, serveRequest, selectFirstMatch, h]

/-- Settles O44. -/
theorem appendingKeepsMatchedRequests : Obligations.AppendingKeepsMatchedRequests := by
  intro T U w s
  refine ⟨fun h => decodeAndExecuteWith_congr ?_ s, fun h => decodeAndExecuteWith_congr ?_ s⟩
  · obtain ⟨e, he⟩ : ∃ e, T.firstMatch w = some e := by
      rw [← Option.ne_none_iff_exists', Ne, Table.firstMatch_eq_none_iff, ← Table.anyHit_eq_false_iff, h]
      decide
    rw [Table.firstMatch_append, he, Option.some_or]
  · rw [Table.firstMatch_append, (T.firstMatch_eq_none_iff w).mpr ((T.anyHit_eq_false_iff w).mp h), Option.none_or]

/-! ### Building a table and booting (rules R80, R184) -/

theorem entriesWellFormed_iff (es : List Entry) :
    entriesWellFormed es = true ↔ ∀ e ∈ es, patternWellFormed e.pattern = true :=
  List.all_eq_true

theorem buildTable_of_wellFormed {es : List Entry} (h : entriesWellFormed es = true) : buildTable es = .ok ⟨es, h⟩ :=
  dif_pos h

theorem buildTable_of_malformed {es : List Entry} (h : entriesWellFormed es = false) :
    buildTable es = .error (.malformedPattern (es.findIdx (fun e => !patternWellFormed e.pattern))) :=
  dif_neg (by simp [h])

/-- Settles O46. -/
theorem buildRefusesMalformedTable : Obligations.BuildRefusesMalformedTable := by
  intro es
  refine ⟨fun h => ⟨_, buildTable_of_wellFormed ((entriesWellFormed_iff es).mpr h), rfl⟩, ?_⟩
  rintro earlier later e rfl hearlier he
  have hidx : earlier.findIdx (fun e => !patternWellFormed e.pattern) = earlier.length := by
    rw [List.findIdx_eq_length]
    exact fun e' he' => by simp [hearlier e' he']
  rw [buildTable_of_malformed (by simp [entriesWellFormed, he]), List.findIdx_append, hidx, if_neg (lt_irrefl _),
    List.findIdx_cons]
  simp [he]

/-- Settles O52. -/
theorem bootProvidesTableStateMemory : Obligations.BootProvidesTableStateMemory := by
  refine fun p es => ⟨fun h => ?_, fun h x => ?_⟩
  · refine ⟨⟨es, h⟩, State.resetWith (Memory.ofBytes p.init), ?_, rfl, rfl, rfl, rfl, Memory.read_ofBytes p.init⟩
    rw [boot, buildTable_of_wellFormed h]
  · rw [boot, buildTable_of_malformed h]
    nofun

/-! ### The rules on actions (rules R41, R106) -/

/-- What a request answers when its action gives a result: the result is kept iff it writes registers only. -/
theorem decodeAndExecuteWith_of_result {T : Table} {w : Word} {s : State} {e : Entry} {cpu : Cpu}
    {written : Option Memory} (hm : T.firstMatch w = some e)
    (hp : (e.action s.advancePc.cpu w).perform s.mem = .ok (cpu, written)) :
    decodeAndExecuteWith T w s =
      if cpu.pc = s.advancePc.cpu.pc ∧ written = none then .next (State.respond .ok { s with cpu := cpu })
      else .refused .actionWritesPcOrMemory := by
  rw [decodeAndExecuteWith_of_match hm]
  cases written with
  | some m =>
    rw [runAction_memory (s := s.advancePc) hp]
    simp
  | none =>
    rw [runAction_ok (s := s.advancePc) hp]
    by_cases hpc : cpu.pc = s.advancePc.cpu.pc
    · simp only [hpc, if_true, and_true]
      rfl
    · simp only [hpc, if_false, false_and]

/-- Settles O47. -/
theorem actionsWriteRegistersOnly : Obligations.ActionsWriteRegistersOnly := by
  intro T w s e cpu written hm hp
  rw [decodeAndExecuteWith_of_result hm hp]
  refine ⟨fun h => if_neg (by tauto), fun hpc hw => ⟨_, if_pos ⟨hpc, hw⟩, rfl, rfl, rfl, rfl, rfl⟩⟩

theorem decodeAndExecuteWith_of_refused_read {T : Table} {w : Word} {s : State} {e : Entry} {r : Refusal}
    (hm : T.firstMatch w = some e) (hp : (e.action s.advancePc.cpu w).perform s.mem = .error r) :
    decodeAndExecuteWith T w s = .refused r := by
  rw [decodeAndExecuteWith_of_match hm, runAction_error (s := s.advancePc) hp]

/-- Settles O48: by what the action's computation can do (`Computation.perform_cases`). -/
theorem actionReadBeyondStoreIsRefused : Obligations.ActionReadBeyondStoreIsRefused := by
  intro T w s e hwf hm
  obtain ⟨⟨cpu, written⟩, hp, hvalue⟩ | ⟨x, hp, hx, hnone, hunique⟩ :=
    (e.action s.advancePc.cpu w).perform_cases s.mem
  · refine ⟨fun a ha hle => absurd ((Memory.read_eq_none_iff hwf a).mpr hle) (hvalue a ha),
      fun _ => ⟨⟨_, hp⟩, fun a => ?_⟩⟩
    rw [decodeAndExecuteWith_of_result hm hp]
    split <;> simp
  · refine ⟨fun a ha hle => ?_, fun hwithin => ?_⟩
    · rw [hunique a ha ((Memory.read_eq_none_iff hwf a).mpr hle)]
      exact decodeAndExecuteWith_of_refused_read hm hp
    · exact absurd ((Memory.read_eq_none_iff hwf x).mp hnone) (Nat.not_le.mpr (hwithin x hx))

/-- Settles O49: reading the whole of a canonical store gives its bytes, and these the store. -/
theorem totalFunctionsAreActions : Obligations.TotalFunctionsAreActions := by
  intro f cpu m w hm
  have hbytes : Memory.ofBytes ((m.map Prod.snd).take m.length) = m := by
    rw [List.take_of_length_le (by simp), Memory.ofBytes_bytes hm]
  refine ⟨fun a ha => ?_, ?_⟩
  · rw [Action.ofTotal, Computation.reads, (Computation.perform_readFirst hm le_rfl _).2] at ha
    simpa [Computation.reads] using ha
  · rw [Action.ofTotal, Computation.perform_length, (Computation.perform_readFirst hm le_rfl _).1, hbytes,
      Computation.perform_done]

/-! ### Phases and several blocks (rules R109, R172) -/

/-- Settles O51: by what a completed request was. -/
theorem phasesFollowResponse : Obligations.PhasesFollowResponse := by
  intro T w s t h
  obtain ⟨hm, rfl⟩ | ⟨e, cpu, hm, -, hpc, rfl⟩ := decodeAndExecuteWith_next h
  · rw [requestPhases, hm]
    exact ⟨rfl, by simp, by simp, toNat_add32_four s.cpu.pc⟩
  · rw [requestPhases, hm]
    exact ⟨rfl, by simp, by simp, by rw [State.respond_cpu, hpc, toNat_add32_four]⟩

theorem stepAmong_next {T : Table} {k : Nat} {blocks after : List State}
    (h : stepAmong T k blocks = some (.next after)) :
    ∃ s t, blocks[k]? = some s ∧ stepWith T s = .next t ∧ after = blocks.set k t := by
  unfold stepAmong at h
  split at h
  · cases h
  · split at h
    · exact ⟨_, _, ‹_›, ‹_›, by simpa using h.symm⟩
    · cases h
    · cases h

/-- Settles O53. -/
theorem instancesAreIndependent : Obligations.InstancesAreIndependent := by
  intro T k blocks after h
  obtain ⟨s, t, hs, ht, rfl⟩ := stepAmong_next h
  obtain ⟨hk, -⟩ := List.getElem?_eq_some_iff.mp hs
  exact ⟨List.length_set, fun j hj => List.getElem?_set_ne (Ne.symm hj), s, t, hs, ht, List.getElem?_set_self hk⟩

end Sys2Proof.Machine
end

section
/-!
Texts of numbers: the failure word's hexadecimal rendering (rule R160) and the assembler's lines (rule R86).
-/

namespace Sys2Proof.Machine

/-! ### Digits -/

/-- Digits read one after the other: what is read of the front is read on with the back. -/
theorem readDigits_append (base : Nat) (cs ds : List Char) (n : Nat) :
    readDigits base (cs ++ ds) n = (readDigits base cs n).bind (readDigits base ds) := by
  induction cs generalizing n with
  | nil => rfl
  | cons c cs ih =>
    rw [List.cons_append, readDigits, readDigits]
    cases digitValue base c with
    | none => rfl
    | some v => exact ih _

theorem readDigits_cons {base v : Nat} {c : Char} (h : digitValue base c = some v) (cs : List Char) (n : Nat) :
    readDigits base (c :: cs) n = readDigits base cs (base * n + v) := by
  rw [readDigits, h]

/-! ### The hexadecimal rendering (rule R160) -/

theorem digitValue_hexDigit (d : BitVec 4) : digitValue 16 (hexDigit d) = some d.toNat := by
  revert d
  decide

theorem hexDigit_lowercase (d : BitVec 4) : hexDigit d ∈ "0123456789abcdef".toList := by
  revert d
  decide

/-- Hexadecimal digits read as the number they are the digits of. -/
theorem readDigits_map_hexDigit (ds : List (BitVec 4)) (n : Nat) :
    readDigits 16 (ds.map hexDigit) n = some (ds.foldl (fun m d => 16 * m + d.toNat) n) := by
  induction ds generalizing n with
  | nil => rfl
  | cons d ds ih => rw [List.map_cons, readDigits_cons (digitValue_hexDigit d), ih, List.foldl_cons]

/-- The first `m` digits of a word, most significant first. -/
def hexDigits (w : Word) (m : Nat) : List (BitVec 4) := (List.range m).map (fun k => w.extractLsb' (28 - 4 * k) 4)

theorem renderHex_eq (w : Word) : renderHex w = (hexDigits w 8).map hexDigit := by
  simp [renderHex, hexDigits]

/-- The value of the digits read so far is the word shifted down to them. -/
theorem foldl_hexDigits (w : Word) {m : Nat} (h : m ≤ 8) :
    (hexDigits w m).foldl (fun n d => 16 * n + d.toNat) 0 = w.toNat / 2 ^ (32 - 4 * m) := by
  induction m with
  | zero => exact (Nat.div_eq_of_lt w.isLt).symm
  | succ m ih =>
    have hstep : hexDigits w (m + 1) = hexDigits w m ++ [w.extractLsb' (28 - 4 * m) 4] := by
      simp [hexDigits, List.range_succ]
    rw [hstep, List.foldl_concat, ih (by omega), BitVec.extractLsb'_toNat, Nat.shiftRight_eq_div_pow,
      show 32 - 4 * m = 28 - 4 * m + 4 by omega, show 32 - 4 * (m + 1) = 28 - 4 * m by omega, Nat.pow_add,
      ← Nat.div_div_eq_div_mul]
    exact Nat.div_add_mod _ 16

/-- Settles O55. -/
theorem hexRenderingReadsBack : Obligations.HexRenderingReadsBack := by
  intro w
  refine ⟨by simp [renderHex], fun c hc => ?_, ?_⟩
  · rw [renderHex_eq] at hc
    obtain ⟨d, -, rfl⟩ := List.mem_map.mp hc
    exact hexDigit_lowercase d
  · rw [renderHex_eq, readDigits_map_hexDigit, foldl_hexDigits w le_rfl]
    simp

/-! ### Lines that assemble decode (rule R86) -/

theorem toNat_ofNat_reg {d : Nat} (h : d < 32) : (BitVec.ofNat 5 d).toNat = d :=
  Nat.mod_eq_of_lt h

/-- The instruction of a line whose numbers are in range is well-formed. -/
theorem AsmLine.wellFormed_toInstr {a : AsmLine} {i : Instr} (h : a.toInstr = some i) :
    a.wellFormed = true ∧ i.wellFormed = true ∧ asmLineOf i = a := by
  unfold AsmLine.toInstr at h
  split at h
  case isFalse => cases h
  case isTrue hwf =>
    refine ⟨hwf, ?_⟩
    cases a with
    | add d s1 s2 =>
      obtain rfl := Option.some.inj h
      simp only [AsmLine.wellFormed, Bool.and_eq_true, decide_eq_true_eq] at hwf
      obtain ⟨⟨hd, h1⟩, h2⟩ := hwf
      exact ⟨rfl, by rw [asmLineOf, toNat_ofNat_reg hd, toNat_ofNat_reg h1, toNat_ofNat_reg h2]⟩
    | addi d s1 imm =>
      obtain rfl := Option.some.inj h
      simp only [AsmLine.wellFormed, Bool.and_eq_true, decide_eq_true_eq] at hwf
      obtain ⟨⟨hd, h1⟩, himm⟩ := hwf
      have hval : (BitVec.ofNat 32 imm).toNat = imm := Nat.mod_eq_of_lt (by omega)
      exact ⟨by rwa [Instr.wellFormed, immIWellFormed_iff, hval],
        by rw [asmLineOf, toNat_ofNat_reg hd, toNat_ofNat_reg h1, hval]⟩
    | auipc d imm20 =>
      obtain rfl := Option.some.inj h
      simp only [AsmLine.wellFormed, Bool.and_eq_true, decide_eq_true_eq] at hwf
      obtain ⟨hd, himm⟩ := hwf
      have hval : (BitVec.ofNat 32 (imm20 * 4096)).toNat = imm20 * 4096 := Nat.mod_eq_of_lt (by omega)
      exact ⟨by rw [Instr.wellFormed, immUWellFormed_iff, hval, Nat.mul_mod_left],
        by rw [asmLineOf, toNat_ofNat_reg hd, hval, Nat.mul_div_cancel _ (by decide)]⟩

theorem assemble_some {text : List Char} {w : Word} (h : assemble text = some w) :
    ∃ a i, readAsm text = some a ∧ a.toInstr = some i ∧ w = encode i := by
  unfold assemble at h
  split at h
  · cases h
  · split at h
    · cases h
    · exact ⟨_, _, ‹_›, ‹_›, by simpa using h.symm⟩

/-- Settles O58. -/
theorem assembledLinesDecode : Obligations.AssembledLinesDecode := by
  intro text w h
  obtain ⟨a, i, hread, hinstr, rfl⟩ := assemble_some h
  obtain ⟨hwf, hiwf, hline⟩ := AsmLine.wellFormed_toInstr hinstr
  exact ⟨a, i, hread, hwf, hinstr, decode_encode hiwf, hline⟩

/-! ### Written numbers read back -/

theorem digitValue_decimal {d : Nat} (h : d < 10) : digitValue 10 (Char.ofNat (48 + d)) = some d := by
  interval_cases d <;> decide

theorem isDigit_decimal {d : Nat} (h : d < 10) : (Char.ofNat (48 + d)).isDigit = true := by
  interval_cases d <;> decide

theorem readDigits_decimalDigits {n v : Nat} (h : v < 10 ^ n) :
    readDigits 10 (decimalDigits n v).reverse 0 = some v := by
  induction n generalizing v with
  | zero =>
    obtain rfl : v = 0 := by omega
    rfl
  | succ n ih =>
    have hfront : readDigits 10 (if v / 10 = 0 then [] else decimalDigits n (v / 10)).reverse 0 = some (v / 10) := by
      split
      · simp [readDigits, *]
      · exact ih (by omega)
    rw [decimalDigits, List.reverse_cons, readDigits_append, hfront, Option.bind_some,
      readDigits_cons (digitValue_decimal (Nat.mod_lt v (by decide))), readDigits, Nat.div_add_mod]

theorem isDigit_decimalDigits {n v : Nat} {c : Char} (h : c ∈ decimalDigits n v) : c.isDigit = true := by
  induction n generalizing v with
  | zero => cases h
  | succ n ih =>
    rw [decimalDigits, List.mem_cons] at h
    obtain rfl | h := h
    · exact isDigit_decimal (Nat.mod_lt v (by decide))
    · split at h
      · cases h
      · exact ih h

theorem isDigit_writeNumber {v : Nat} {c : Char} (h : c ∈ writeNumber v) : c.isDigit = true :=
  isDigit_decimalDigits (List.mem_reverse.mp h)

theorem writeNumber_ne_nil (v : Nat) : writeNumber v ≠ [] := by
  simp [writeNumber, decimalDigits]

theorem readDigits_writeNumber {v : Nat} (h : v < 10 ^ 7) : readDigits 10 (writeNumber v) 0 = some v :=
  readDigits_decimalDigits h

/-- A text of digits is no hexadecimal number: its second character is not `x`. -/
theorem readNumber_writeNumber {v : Nat} (h : v < 10 ^ 7) : readNumber (writeNumber v) = some v := by
  rw [← readDigits_writeNumber h]
  unfold readNumber
  split
  case h_1 heq => exact absurd heq (writeNumber_ne_nil v)
  case h_2 heq =>
    have hx : 'x'.isDigit = true := isDigit_writeNumber (v := v) (by simp [heq])
    exact absurd hx (by decide)
  case h_3 heq => rw [heq]

theorem readRegister_writeRegister {d : Nat} (h : d < 32) : readRegister (writeRegister d) = some d := by
  rw [← readDigits_writeNumber (show d < 10 ^ 7 by omega), writeRegister]
  obtain ⟨c, cs, heq⟩ := List.exists_cons_of_ne_nil (writeNumber_ne_nil d)
  rw [heq]
  rfl

/-! ### Operands cut apart -/

/-- An operand's text: no comma and no space in it. -/
def IsOperand (cs : List Char) : Prop := ∀ c ∈ cs, c ≠ ',' ∧ c ≠ ' '

theorem isOperand_writeNumber (v : Nat) : IsOperand (writeNumber v) := by
  intro c hc
  have hdigit := isDigit_writeNumber hc
  constructor <;>
  · rintro rfl
    exact absurd hdigit (by decide)

theorem isOperand_writeRegister (d : Nat) : IsOperand (writeRegister d) := by
  intro c hc
  obtain rfl | hc := List.mem_cons.mp hc
  · decide
  · exact isOperand_writeNumber d c hc

theorem cutAt_ne_nil (sep : Char) (cs : List Char) : cutAt sep cs ≠ [] := by
  cases cs with
  | nil => simp [cutAt]
  | cons c cs =>
    rw [cutAt]
    split
    · simp
    · split <;> simp

theorem cutAt_cons_sep (sep : Char) (cs : List Char) : cutAt sep (sep :: cs) = [] :: cutAt sep cs := by
  obtain ⟨w, ws, h⟩ := List.exists_cons_of_ne_nil (cutAt_ne_nil sep cs)
  simp [cutAt, h]

theorem cutAt_cons_of_ne {sep c : Char} (hc : c ≠ sep) {cs w : List Char} {ws : List (List Char)}
    (h : cutAt sep cs = w :: ws) : cutAt sep (c :: cs) = (c :: w) :: ws := by
  simp [cutAt, h, hc]

/-- A text without the separator stays whole in front of what follows. -/
theorem cutAt_append {sep : Char} {as cs w : List Char} {ws : List (List Char)} (has : ∀ c ∈ as, c ≠ sep)
    (h : cutAt sep cs = w :: ws) : cutAt sep (as ++ cs) = (as ++ w) :: ws := by
  induction as with
  | nil => exact h
  | cons a as ih =>
    exact cutAt_cons_of_ne (has a (by simp)) (ih fun c hc => has c (List.mem_cons_of_mem a hc))

theorem filter_space_of_isOperand {a : List Char} (h : IsOperand a) : a.filter (fun c => c != ' ') = a := by
  rw [List.filter_eq_self]
  exact fun c hc => bne_iff_ne.mpr (h c hc).2

theorem operandTexts_last {a : List Char} (h : IsOperand a) : operandTexts a = [a] := by
  have hcut : cutAt ',' (a ++ []) = [a ++ []] := cutAt_append (fun c hc => (h c hc).1) rfl
  rw [List.append_nil] at hcut
  rw [operandTexts, hcut, List.map_singleton, filter_space_of_isOperand h]

theorem operandTexts_cons_space (cs : List Char) : operandTexts (' ' :: cs) = operandTexts cs := by
  obtain ⟨w, ws, h⟩ := List.exists_cons_of_ne_nil (cutAt_ne_nil ',' cs)
  rw [operandTexts, operandTexts, cutAt_cons_of_ne (by decide) h, h]
  rfl

theorem operandTexts_cons {a : List Char} (h : IsOperand a) (cs : List Char) :
    operandTexts (a ++ (", ".toList ++ cs)) = a :: operandTexts cs := by
  have hcut : cutAt ',' (a ++ ',' :: ' ' :: cs) = (a ++ []) :: cutAt ',' (' ' :: cs) :=
    cutAt_append (fun c hc => (h c hc).1) (cutAt_cons_sep ',' _)
  rw [← operandTexts_cons_space cs, operandTexts, operandTexts]
  exact congrArg (List.map _) hcut |>.trans (by rw [List.map_cons, List.append_nil, filter_space_of_isOperand h])

/-! ### Written lines assemble (rule R86) -/

theorem readAsm_add (cs : List Char) : readAsm ("add ".toList ++ cs) = readThree readRegister .add cs := rfl
theorem readAsm_addi (cs : List Char) : readAsm ("addi ".toList ++ cs) = readThree readNumber .addi cs := rfl

/-- Two operands: register and number, as `auipc` takes them (rule R86). -/
def readTwo (cs : List Char) : Option AsmLine :=
  match operandTexts cs with
  | [a, b] =>
    match readRegister a, readNumber b with
    | some d, some v => some (.auipc d v)
    | _, _ => none
  | _ => none

theorem readAsm_auipc (cs : List Char) : readAsm ("auipc ".toList ++ cs) = readTwo cs := rfl

/-- Two registers and a last operand, as a line writes them, read back. -/
theorem readThree_written {last : List Char → Option Nat} (mk : Nat → Nat → Nat → AsmLine) {d s v : Nat} {c : List Char}
    (hd : d < 32) (hs : s < 32) (hc : IsOperand c) (hv : last c = some v) :
    readThree last mk (writeRegister d ++ (", ".toList ++ (writeRegister s ++ (", ".toList ++ c)))) =
      some (mk d s v) := by
  rw [readThree, operandTexts_cons (isOperand_writeRegister d), operandTexts_cons (isOperand_writeRegister s),
    operandTexts_last hc]
  simp only [readRegister_writeRegister hd, readRegister_writeRegister hs, hv]

/-- A register and a number, as a line writes them, read back. -/
theorem readTwo_written {d v : Nat} {c : List Char} (hd : d < 32) (hc : IsOperand c) (hv : readNumber c = some v) :
    readTwo (writeRegister d ++ (", ".toList ++ c)) = some (.auipc d v) := by
  rw [readTwo, operandTexts_cons (isOperand_writeRegister d), operandTexts_last hc]
  simp only [readRegister_writeRegister hd, hv]

theorem writeAsm_add (d s1 s2 : Nat) : writeAsm (.add d s1 s2) =
    "add ".toList ++ (writeRegister d ++ (", ".toList ++ (writeRegister s1 ++ (", ".toList ++ writeRegister s2)))) := by
  change "add ".toList ++ writeRegister d ++ ", ".toList ++ writeRegister s1 ++ ", ".toList ++ writeRegister s2 = _
  simp only [List.append_assoc]

theorem writeAsm_addi (d s1 imm : Nat) : writeAsm (.addi d s1 imm) =
    "addi ".toList ++ (writeRegister d ++ (", ".toList ++ (writeRegister s1 ++ (", ".toList ++ writeNumber imm)))) := by
  change "addi ".toList ++ writeRegister d ++ ", ".toList ++ writeRegister s1 ++ ", ".toList ++ writeNumber imm = _
  simp only [List.append_assoc]

theorem writeAsm_auipc (d imm20 : Nat) : writeAsm (.auipc d imm20) =
    "auipc ".toList ++ (writeRegister d ++ (", ".toList ++ writeNumber imm20)) := by
  change "auipc ".toList ++ writeRegister d ++ ", ".toList ++ writeNumber imm20 = _
  simp only [List.append_assoc]

theorem readAsm_writeAsm {a : AsmLine} (h : a.wellFormed = true) : readAsm (writeAsm a) = some a := by
  cases a with
  | add d s1 s2 =>
    simp only [AsmLine.wellFormed, Bool.and_eq_true, decide_eq_true_eq] at h
    obtain ⟨⟨hd, h1⟩, h2⟩ := h
    rw [writeAsm_add, readAsm_add,
      readThree_written .add hd h1 (isOperand_writeRegister s2) (readRegister_writeRegister h2)]
  | addi d s1 imm =>
    simp only [AsmLine.wellFormed, Bool.and_eq_true, decide_eq_true_eq] at h
    obtain ⟨⟨hd, h1⟩, himm⟩ := h
    rw [writeAsm_addi, readAsm_addi,
      readThree_written .addi hd h1 (isOperand_writeNumber imm) (readNumber_writeNumber (by omega))]
  | auipc d imm20 =>
    simp only [AsmLine.wellFormed, Bool.and_eq_true, decide_eq_true_eq] at h
    obtain ⟨hd, himm⟩ := h
    rw [writeAsm_auipc, readAsm_auipc, readTwo_written hd (isOperand_writeNumber imm20) (readNumber_writeNumber (by omega))]

/-- The line of a well-formed instruction is in range and reads as the instruction. -/
theorem toInstr_asmLineOf {i : Instr} (h : i.wellFormed = true) : (asmLineOf i).toInstr = some i := by
  cases i with
  | add rd src1 src2 =>
    have hwf : (asmLineOf (.add rd src1 src2)).wellFormed = true := by
      simp [asmLineOf, AsmLine.wellFormed, RegIdx.toNat_lt]
    unfold AsmLine.toInstr
    rw [if_pos hwf]
    simp [asmLineOf]
  | addi rd src1 immI =>
    have himm : immI.toNat < 4096 := (immIWellFormed_iff immI).mp h
    have hwf : (asmLineOf (.addi rd src1 immI)).wellFormed = true := by
      simp [asmLineOf, AsmLine.wellFormed, RegIdx.toNat_lt, himm]
    unfold AsmLine.toInstr
    rw [if_pos hwf]
    simp [asmLineOf]
  | auipc rd immU =>
    have himm : immU.toNat / 4096 * 4096 = immU.toNat :=
      Nat.div_mul_cancel (Nat.dvd_of_mod_eq_zero ((immUWellFormed_iff immU).mp h))
    have hwf : (asmLineOf (.auipc rd immU)).wellFormed = true := by
      have := immU.isLt
      simp only [asmLineOf, AsmLine.wellFormed, Bool.and_eq_true, decide_eq_true_eq]
      exact ⟨rd.toNat_lt, by omega⟩
    unfold AsmLine.toInstr
    rw [if_pos hwf]
    simp [asmLineOf, himm]

/-- Settles O59. -/
theorem writtenLinesAssemble : Obligations.WrittenLinesAssemble := by
  intro i h
  have hinstr := toInstr_asmLineOf h
  obtain ⟨hwf, -, -⟩ := AsmLine.wellFormed_toInstr hinstr
  rw [assemble, readAsm_writeAsm hwf]
  simp only [hinstr]

end Sys2Proof.Machine
end
